-- ==== Sys2Proof/Word.lean ====
section
/-! DEFINITION. The word types of ALU64 and the three-limb value type (10_state.md rules R20, R21). -/

namespace Sys2Proof

/-- A 64-bit pattern or a 64-bit command word (R9, R70). -/
abbrev Word64 := BitVec 64

/-- A native 32-bit integer, read as signed with `BitVec.toInt` (00_scope.md rule R11, 30_encoding.md rule R74). -/
abbrev Native := BitVec 32

/-- A register number: the 4-bit handle of a value register, `0` to `15` (R26, R73). -/
abbrev RegIdx := Fin 16

/-- The document's value type: three unsigned limbs whose concatenation `high‖mid‖low` is the 64-bit pattern
(R20, R22). The widths are in the types, so the invariant R21 holds of every value. -/
structure Int64Value where
  /-- bits `[63:44]` of the pattern; its top bit is the sign -/
  high : BitVec 20
  /-- bits `[43:22]` of the pattern -/
  mid : BitVec 22
  /-- bits `[21:0]` of the pattern -/
  low : BitVec 22
  deriving DecidableEq, Repr

end Sys2Proof
end

