-- ==== Sys2Proof/Config.lean ====
section
/-! DEFINITION. What the spec leaves open: the parameter GPR_RESET (00_scope.md rule R7, decision D7). Every other
parameter of R7 is a fixed number and stands as a literal where it is used. -/

namespace Sys2Proof

/-- FREE VALUE (log entry 2, DESIGN CHOICE): the pattern that general register `x[i + 6]` holds after the action
H_RESET number `resets`, counted from 0. R36 promises neither zero nor the same value from one reset to the next. -/
opaque Config.gprAfterReset (resets i : Nat) : Word64

end Sys2Proof
end

