-- ==== Sys2Proof/Syntax.lean ====
section
/-! DEFINITION. The commands of ALU64, one constructor for each row of the opcode table (30_encoding.md rules R72, R80). -/

namespace Sys2Proof

/-- A command with the fields its format uses (R72). A register field is any of the sixteen numbers: which of them
are legal as destinations is `Instr.wellFormed` (R90). -/
inductive Instr where
  /-- `fromInt32 rd, imm` (R111) -/
  | fromInt32 (rd : RegIdx) (imm : Native)
  /-- `toInt32 rd, ra` (R114) -/
  | toInt32 (rd ra : RegIdx)
  /-- `add rd, ra, rb` (R151) -/
  | add (rd ra rb : RegIdx)
  /-- `sub rd, ra, rb` (R153) -/
  | sub (rd ra rb : RegIdx)
  /-- `neg rd, ra` (R155) -/
  | neg (rd ra : RegIdx)
  /-- `mul rd, ra, rb` (R184) -/
  | mul (rd ra rb : RegIdx)
  /-- `divMod rd, ra, rb`: `wr = 0`, quotient only (R230) -/
  | divModQuotient (rd ra rb : RegIdx)
  /-- `divMod rd, rr, ra, rb`: `wr = 1`, quotient and remainder (R230) -/
  | divModPair (rd rr ra rb : RegIdx)
  /-- `shl rd, ra, n` (R132) -/
  | shl (rd ra : RegIdx) (n : Native)
  /-- `shr rd, ra, n` (R134) -/
  | shr (rd ra : RegIdx) (n : Native)
  /-- `shru rd, ra, n` (R136) -/
  | shru (rd ra : RegIdx) (n : Native)
  /-- `and rd, ra, rb` (R121) -/
  | and (rd ra rb : RegIdx)
  /-- `or rd, ra, rb` (R122) -/
  | or (rd ra rb : RegIdx)
  /-- `xor rd, ra, rb` (R123) -/
  | xor (rd ra rb : RegIdx)
  /-- `not rd, ra` (R124) -/
  | not (rd ra : RegIdx)
  /-- `compare rd, ra, rb` (R163) -/
  | compare (rd ra rb : RegIdx)
  deriving DecidableEq, Repr

end Sys2Proof
end

