-- ==== Sys2Proof/WellFormed.lean ====
section
/-! DEFINITION. The register-range checks of a command: checks 3 and 4 of 30_encoding.md rule R90, and the registers a
command reads and writes (10_state.md rule R29). Checks 1 and 2 are about bits and stand in Decode. -/

namespace Sys2Proof

/-- A general register, `6..15`: the only legal destinations (R27, R28, R73). -/
def RegIdx.isGeneral (r : RegIdx) : Bool := decide (6 ≤ r.val)

/-- The value registers a command may write, in the order of its fields `rd`, `rr` (R29). -/
def Instr.destinations : Instr → List RegIdx
  | .fromInt32 rd _ => [rd]
  | .toInt32 rd _ => [rd]
  | .add rd _ _ => [rd]
  | .sub rd _ _ => [rd]
  | .neg rd _ => [rd]
  | .mul rd _ _ => [rd]
  | .divModQuotient rd _ _ => [rd]
  | .divModPair rd rr _ _ => [rd, rr]
  | .shl rd _ _ => [rd]
  | .shr rd _ _ => [rd]
  | .shru rd _ _ => [rd]
  | .and rd _ _ => [rd]
  | .or rd _ _ => [rd]
  | .xor rd _ _ => [rd]
  | .not rd _ => [rd]
  | .compare rd _ _ => [rd]

/-- The value registers a command reads, in the order of its fields `ra`, `rb` (R29). -/
def Instr.sources : Instr → List RegIdx
  | .fromInt32 _ _ => []
  | .toInt32 _ ra => [ra]
  | .add _ ra rb => [ra, rb]
  | .sub _ ra rb => [ra, rb]
  | .neg _ ra => [ra]
  | .mul _ ra rb => [ra, rb]
  | .divModQuotient _ ra rb => [ra, rb]
  | .divModPair _ _ ra rb => [ra, rb]
  | .shl _ ra _ => [ra]
  | .shr _ ra _ => [ra]
  | .shru _ ra _ => [ra]
  | .and _ ra rb => [ra, rb]
  | .or _ ra rb => [ra, rb]
  | .xor _ ra rb => [ra, rb]
  | .not _ ra => [ra]
  | .compare _ ra rb => [ra, rb]

/-- The register whose zero makes a command raise DivideByZero: the divisor of `divMod` (R271, R278). -/
def Instr.divisor : Instr → Option RegIdx
  | .fromInt32 _ _ => none
  | .toInt32 _ _ => none
  | .add _ _ _ => none
  | .sub _ _ _ => none
  | .neg _ _ => none
  | .mul _ _ _ => none
  | .divModQuotient _ _ rb => some rb
  | .divModPair _ _ _ rb => some rb
  | .shl _ _ _ => none
  | .shr _ _ _ => none
  | .shru _ _ _ => none
  | .and _ _ _ => none
  | .or _ _ _ => none
  | .xor _ _ _ => none
  | .not _ _ => none
  | .compare _ _ _ => none

/-- Checks 3 and 4 of R90: every destination is a general register and the two destinations of a `divMod` pair
differ. Source fields are never a reason for illegality. -/
def Instr.wellFormed (i : Instr) : Bool :=
  i.destinations.all RegIdx.isGeneral && decide i.destinations.Nodup

end Sys2Proof
end

