-- ==== Sys2Proof/Decode.lean ====
section
/-! DEFINITION. The command word: its fields, the opcode map, the decoder and the encoder (30_encoding.md rules R70 to
R75, R80, R81, R90 to R92). -/

namespace Sys2Proof

/-- The fields of a command word (R71). -/
structure Fields where
  op : BitVec 8
  rd : BitVec 4
  rr : BitVec 4
  ra : BitVec 4
  rb : BitVec 4
  z : BitVec 7
  wr : BitVec 1
  imm : BitVec 32
  deriving DecidableEq, Repr

/-- The fields at the bit positions of R71. -/
def fieldsOf (cw : Word64) : Fields where
  op := cw.extractLsb' 56 8
  rd := cw.extractLsb' 52 4
  rr := cw.extractLsb' 48 4
  ra := cw.extractLsb' 44 4
  rb := cw.extractLsb' 40 4
  z := cw.extractLsb' 33 7
  wr := cw.extractLsb' 32 1
  imm := cw.extractLsb' 0 32

/-- The word with these fields, `op` most significant (R71). -/
def wordOf (f : Fields) : Word64 :=
  f.op ++ f.rd ++ f.rr ++ f.ra ++ f.rb ++ f.z ++ f.wr ++ f.imm

/-- The five formats (R72). -/
inductive Format where
  | I | U | S | R | D
  deriving DecidableEq, Repr

/-- The fifteen commands of the opcode map (R80). -/
inductive Opcode where
  | fromInt32 | toInt32 | add | sub | neg | mul | divMod | shl | shr | shru | and | or | xor | not | compare
  deriving DecidableEq, Repr

/-- The opcode numbers (R80). -/
def Opcode.code : Opcode → BitVec 8
  | .fromInt32 => 0x00
  | .toInt32 => 0x03
  | .add => 0x04
  | .sub => 0x05
  | .neg => 0x06
  | .mul => 0x07
  | .divMod => 0x08
  | .shl => 0x09
  | .shr => 0x0A
  | .shru => 0x0B
  | .and => 0x0C
  | .or => 0x0D
  | .xor => 0x0E
  | .not => 0x0F
  | .compare => 0x10

/-- The format of each command (R72). -/
def Opcode.format : Opcode → Format
  | .fromInt32 => .I
  | .toInt32 => .U
  | .add => .R
  | .sub => .R
  | .neg => .U
  | .mul => .R
  | .divMod => .D
  | .shl => .S
  | .shr => .S
  | .shru => .S
  | .and => .R
  | .or => .R
  | .xor => .R
  | .not => .U
  | .compare => .R

/-- The commands in the order of their opcodes. -/
def Opcode.all : List Opcode :=
  [.fromInt32, .toInt32, .add, .sub, .neg, .mul, .divMod, .shl, .shr, .shru, .and, .or, .xor, .not, .compare]

/-- Check 1 of R90: the command with this opcode number, none for a reserved one (R91). -/
def opcodeOf (op : BitVec 8) : Option Opcode := Opcode.all.find? (fun o => o.code == op)

/-- Check 2 of R90: every field the format does not use is zero (R72). -/
def Format.unusedZero (k : Format) (f : Fields) : Bool :=
  match k with
  | .I => f.rr == 0 && f.ra == 0 && f.rb == 0 && f.z == 0 && f.wr == 0
  | .U => f.rr == 0 && f.rb == 0 && f.z == 0 && f.wr == 0 && f.imm == 0
  | .S => f.rr == 0 && f.rb == 0 && f.z == 0 && f.wr == 0
  | .R => f.rr == 0 && f.z == 0 && f.wr == 0 && f.imm == 0
  | .D => f.z == 0 && f.imm == 0 && (f.wr == 1 || f.rr == 0)

/-- A register field as a register number (R73). -/
def regOf (b : BitVec 4) : RegIdx := ⟨b.toNat, b.isLt⟩

/-- A register number as a register field (R73). -/
def regField (r : RegIdx) : BitVec 4 := BitVec.ofNat 4 r.val

/-- The command an opcode and the fields its format uses stand for; for `divMod` the `wr` bit selects the form
(R75, R92). -/
def Opcode.build (o : Opcode) (f : Fields) : Instr :=
  match o with
  | .fromInt32 => .fromInt32 (regOf f.rd) f.imm
  | .toInt32 => .toInt32 (regOf f.rd) (regOf f.ra)
  | .add => .add (regOf f.rd) (regOf f.ra) (regOf f.rb)
  | .sub => .sub (regOf f.rd) (regOf f.ra) (regOf f.rb)
  | .neg => .neg (regOf f.rd) (regOf f.ra)
  | .mul => .mul (regOf f.rd) (regOf f.ra) (regOf f.rb)
  | .divMod =>
    if f.wr = 1 then .divModPair (regOf f.rd) (regOf f.rr) (regOf f.ra) (regOf f.rb)
    else .divModQuotient (regOf f.rd) (regOf f.ra) (regOf f.rb)
  | .shl => .shl (regOf f.rd) (regOf f.ra) f.imm
  | .shr => .shr (regOf f.rd) (regOf f.ra) f.imm
  | .shru => .shru (regOf f.rd) (regOf f.ra) f.imm
  | .and => .and (regOf f.rd) (regOf f.ra) (regOf f.rb)
  | .or => .or (regOf f.rd) (regOf f.ra) (regOf f.rb)
  | .xor => .xor (regOf f.rd) (regOf f.ra) (regOf f.rb)
  | .not => .not (regOf f.rd) (regOf f.ra)
  | .compare => .compare (regOf f.rd) (regOf f.ra) (regOf f.rb)

/-- Why a word is no command, by name. Both are IllegalCommand to the host: the block does not report which check
failed (R90; log entry 6). -/
inductive DecodeError where
  /-- check 1 of R90: a reserved or unassigned opcode (R91) -/
  | reservedOpcode
  /-- check 2 of R90: a field the format does not use is not zero -/
  | unusedFieldNotZero
  deriving DecidableEq, Repr

/-- The decoder: checks 1 and 2 of R90, which are the match and mask of R81. It is total on the 2^64 words (R92).
The register-range checks 3 and 4 are `Instr.wellFormed`. -/
def decode (cw : Word64) : Except DecodeError Instr :=
  match opcodeOf (fieldsOf cw).op with
  | none => .error .reservedOpcode
  | some o =>
    if o.format.unusedZero (fieldsOf cw) then .ok (o.build (fieldsOf cw)) else .error .unusedFieldNotZero

/-- A command word is legal when all four checks of R90 pass. -/
def legal (cw : Word64) : Bool :=
  match decode cw with
  | .ok i => i.wellFormed
  | .error _ => false

/-- The fields of a command's word; every field its format does not use is zero (R72, R96). -/
def Instr.fields : Instr → Fields
  | .fromInt32 rd imm => ⟨Opcode.fromInt32.code, regField rd, 0, 0, 0, 0, 0, imm⟩
  | .toInt32 rd ra => ⟨Opcode.toInt32.code, regField rd, 0, regField ra, 0, 0, 0, 0⟩
  | .add rd ra rb => ⟨Opcode.add.code, regField rd, 0, regField ra, regField rb, 0, 0, 0⟩
  | .sub rd ra rb => ⟨Opcode.sub.code, regField rd, 0, regField ra, regField rb, 0, 0, 0⟩
  | .neg rd ra => ⟨Opcode.neg.code, regField rd, 0, regField ra, 0, 0, 0, 0⟩
  | .mul rd ra rb => ⟨Opcode.mul.code, regField rd, 0, regField ra, regField rb, 0, 0, 0⟩
  | .divModQuotient rd ra rb => ⟨Opcode.divMod.code, regField rd, 0, regField ra, regField rb, 0, 0, 0⟩
  | .divModPair rd rr ra rb => ⟨Opcode.divMod.code, regField rd, regField rr, regField ra, regField rb, 0, 1, 0⟩
  | .shl rd ra n => ⟨Opcode.shl.code, regField rd, 0, regField ra, 0, 0, 0, n⟩
  | .shr rd ra n => ⟨Opcode.shr.code, regField rd, 0, regField ra, 0, 0, 0, n⟩
  | .shru rd ra n => ⟨Opcode.shru.code, regField rd, 0, regField ra, 0, 0, 0, n⟩
  | .and rd ra rb => ⟨Opcode.and.code, regField rd, 0, regField ra, regField rb, 0, 0, 0⟩
  | .or rd ra rb => ⟨Opcode.or.code, regField rd, 0, regField ra, regField rb, 0, 0, 0⟩
  | .xor rd ra rb => ⟨Opcode.xor.code, regField rd, 0, regField ra, regField rb, 0, 0, 0⟩
  | .not rd ra => ⟨Opcode.not.code, regField rd, 0, regField ra, 0, 0, 0, 0⟩
  | .compare rd ra rb => ⟨Opcode.compare.code, regField rd, 0, regField ra, regField rb, 0, 0, 0⟩

/-- The encoder: the 64-bit word of a command (R71, R96). -/
def encode (i : Instr) : Word64 := wordOf i.fields

/-- The match and the mask of each command's table row (R81). -/
def Instr.row : Instr → Word64 × Word64
  | .fromInt32 _ _ => (0x0000000000000000, 0xFF0FFFFF00000000)
  | .toInt32 _ _ => (0x0300000000000000, 0xFF0F0FFFFFFFFFFF)
  | .add _ _ _ => (0x0400000000000000, 0xFF0F00FFFFFFFFFF)
  | .sub _ _ _ => (0x0500000000000000, 0xFF0F00FFFFFFFFFF)
  | .neg _ _ => (0x0600000000000000, 0xFF0F0FFFFFFFFFFF)
  | .mul _ _ _ => (0x0700000000000000, 0xFF0F00FFFFFFFFFF)
  | .divModQuotient _ _ _ => (0x0800000000000000, 0xFF0F00FFFFFFFFFF)
  | .divModPair _ _ _ _ => (0x0800000100000000, 0xFF0000FFFFFFFFFF)
  | .shl _ _ _ => (0x0900000000000000, 0xFF0F0FFF00000000)
  | .shr _ _ _ => (0x0A00000000000000, 0xFF0F0FFF00000000)
  | .shru _ _ _ => (0x0B00000000000000, 0xFF0F0FFF00000000)
  | .and _ _ _ => (0x0C00000000000000, 0xFF0F00FFFFFFFFFF)
  | .or _ _ _ => (0x0D00000000000000, 0xFF0F00FFFFFFFFFF)
  | .xor _ _ _ => (0x0E00000000000000, 0xFF0F00FFFFFFFFFF)
  | .not _ _ => (0x0F00000000000000, 0xFF0F0FFFFFFFFFFF)
  | .compare _ _ _ => (0x1000000000000000, 0xFF0F00FFFFFFFFFF)

/-- The host's view of the decoder: the command read from a table row's word. A command is one 64-bit word, so every
row has the same length and `nbits` selects nothing (R70). -/
def decodeTableWord (_nbits w : Nat) : Option Instr :=
  match decode (BitVec.ofNat 64 w) with
  | .ok i => some i
  | .error _ => none

end Sys2Proof
end

