-- ==== Sys2Proof/Machine/State.lean ====
section
/-! DEFINITION. The machine's state as plain data, what the host may do to it, and the state after reset (10_state.md
rules R26 to R36, 20_memory.md rule R52). -/

namespace Sys2Proof.Machine

/-- The host's actions (20_memory.md rule R52). -/
inductive HostAction where
  /-- `H_RESET` -/
  | reset
  /-- `H_WRITE(i, B)` -/
  | write (i : RegIdx) (pattern : Word64)
  /-- `H_READ(i)` -/
  | read (i : RegIdx)
  /-- `H_ISSUE(cw)` -/
  | issue (cw : Word64)
  /-- `H_STATUS` -/
  | status
  /-- `H_ACK` -/
  | ack
  deriving DecidableEq, Repr

/-- What an action returns to the host (the last column of R52). -/
inductive Answer where
  /-- `H_RESET`, `H_WRITE` and `H_ACK` return nothing -/
  | nothing
  /-- `H_ISSUE`: the command completed -/
  | done
  /-- `H_ISSUE`: the `fault` level is high -/
  | faultLevel
  /-- `H_READ`: the register's 64-bit pattern -/
  | pattern (b : Word64)
  /-- `H_STATUS`: `STATUS` and `FCMD` -/
  | statusAndCommand (status : BitVec 32) (fcmd : Word64)
  deriving DecidableEq, Repr

/-- The state. The constants `x0..x5` are hardwired (R27) and need no storage: `State.readReg` gives them. -/
structure State where
  /-- the ten general registers `x6..x15`; entry `k` is `x[k + 6]` (R28) -/
  gprs : Vector Int64Value 10
  /-- `STATUS`: `FAULT` in bit 0, `CAUSE` in bits `[2:1]`, bits `[31:3]` hardwired zero (R34) -/
  status : BitVec 32
  /-- `FCMD`: the word of the latest faulting command (R35) -/
  fcmd : Word64
  /-- the model's own: the host's actions yet to come, oldest first (log entry 3) -/
  pending : List HostAction
  /-- the model's own: what the latest action returned to the host (log entry 4) -/
  answer : Answer
  /-- the model's own: how many `H_RESET` actions have been taken; it selects free values (log entry 2) -/
  resets : Nat
  deriving DecidableEq, Repr

/-- Why the machine stops: a host action that is not enabled "has no effect and no step" (R52, R275; U6 of
93_implementation_defined.md; log entry 5). DivideByZero and IllegalCommand are not here: taking them is a next state. -/
inductive Fault where
  /-- raised by every command, and by a word that is no command, while `STATUS.FAULT = 1`: `H_ISSUE` is not enabled; safe -/
  | issueNotEnabled
  /-- raised by the action `H_WRITE` while `STATUS.FAULT = 1`; safe -/
  | writeNotEnabled
  /-- raised by the action `H_ACK` while `STATUS.FAULT = 0`; safe -/
  | ackNotEnabled
  deriving DecidableEq, Repr

/-- What the model gives no move at all. -/
inductive Refusal where
  /-- raised by an arm of `exec` whose instruction has no meaning yet (no arm does); safe -/
  | notModelled (mnemonic : String)
  /-- raised by `H_WRITE(i, B)` with `i < 6`: no action of the interface (R53; log entry 5); safe -/
  | writeToConstant
  deriving DecidableEq, Repr

/-- The machine right after reset (R36). The general registers' zero is the model's own choice, the spec leaves them
unspecified (log entry 1, DESIGN CHOICE, unsafe). -/
def State.reset : State where
  gprs := Vector.replicate 10 ⟨0, 0, 0⟩
  status := 0
  fcmd := 0
  pending := []
  answer := .nothing
  resets := 0

end Sys2Proof.Machine
end

