-- ==== Sys2Proof/Machine/Flags.lean ====
section
/-! DEFINITION. The block has no flags or condition codes (10_state.md rule R31): no command computes one. What stands
here are the fields of the STATUS register (R34), which only fault entry, H_ACK and H_RESET write. -/

namespace Sys2Proof.Machine

/-- The cause codes of R34 and R270; code 3 is never produced (U5). -/
inductive Cause where
  /-- code 0 -/
  | none
  /-- code 1 -/
  | divideByZero
  /-- code 2 -/
  | illegalCommand
  deriving DecidableEq, Repr

/-- The code in `STATUS.CAUSE` (R34). -/
def Cause.code : Cause → BitVec 2
  | .none => 0
  | .divideByZero => 1
  | .illegalCommand => 2

/-- The STATUS word with these fields and bits `[31:3]` zero (R34). -/
def statusWord (fault : Bool) (cause : Cause) : BitVec 32 := (0 : BitVec 29) ++ cause.code ++ BitVec.ofBool fault

/-- `STATUS.FAULT`, which is also the level of the `fault` line (R34). -/
def State.faulted (s : State) : Bool := s.status.getLsbD 0

/-- `STATUS.CAUSE` (R34). -/
def State.causeCode (s : State) : BitVec 2 := s.status.extractLsb' 1 2

/-- `STATUS` as the host reads it: bits `[31:3]` are hardwired zero (R34; log entry 7). -/
def State.readStatus (s : State) : BitVec 32 := (0 : BitVec 29) ++ s.status.extractLsb' 0 3

end Sys2Proof.Machine
end

