-- ==== Sys2Proof/Machine/Values.lean ====
section
/-! DEFINITION. The views of a value, the named constants and the predicates (00_scope.md rule R9, 10_state.md rules R22,
R25, 42_add_sub_neg_compare.md rule R160). -/

namespace Sys2Proof

/-- The 64-bit pattern, `high‖mid‖low` (R9, R22). -/
def Int64Value.bits64 (v : Int64Value) : Word64 := v.high ++ v.mid ++ v.low

/-- The value with a given 64-bit pattern (R9). -/
def limbs (b : Word64) : Int64Value where
  high := b.extractLsb' 44 20
  mid := b.extractLsb' 22 22
  low := b.extractLsb' 0 22

/-- `isNegative(v)`: bit 19 of `high` (R22, R160). -/
def Int64Value.isNegative (v : Int64Value) : Bool := v.high.getLsbD 19

/-- The signed value, in `-2^63 .. 2^63-1` (R9). -/
def Int64Value.sval (v : Int64Value) : Int :=
  if v.isNegative then (v.bits64.toNat : Int) - 2 ^ 64 else v.bits64.toNat

/-- The value whose pattern is the low 64 bits of an integer: wraparound (R9). -/
def wrap (n : Int) : Int64Value := limbs (BitVec.ofInt 64 n)

/-- `isZero(v)` (R160). -/
def Int64Value.isZero (v : Int64Value) : Bool := v.low == 0 && v.mid == 0 && v.high == 0

/-- `isMinValue(v)` (R160). -/
def Int64Value.isMinValue (v : Int64Value) : Bool := v.high == 0x80000 && v.mid == 0 && v.low == 0

/-- `equal(a, b)` (R160). -/
def Int64Value.equal (a b : Int64Value) : Bool := a.low == b.low && a.mid == b.mid && a.high == b.high

/-- `ZERO` (R25). -/
def Int64Value.zero : Int64Value := ⟨0x00000, 0x000000, 0x000000⟩
/-- `ONE` (R25). -/
def Int64Value.one : Int64Value := ⟨0x00000, 0x000000, 0x000001⟩
/-- `TWO` (R25). -/
def Int64Value.two : Int64Value := ⟨0x00000, 0x000000, 0x000002⟩
/-- `NEG_ONE` (R25). -/
def Int64Value.negOne : Int64Value := ⟨0xFFFFF, 0x3FFFFF, 0x3FFFFF⟩
/-- `MIN_VALUE` (R25). -/
def Int64Value.minValue : Int64Value := ⟨0x80000, 0x000000, 0x000000⟩
/-- `MAX_VALUE` (R25). -/
def Int64Value.maxValue : Int64Value := ⟨0x7FFFF, 0x3FFFFF, 0x3FFFFF⟩

end Sys2Proof
end

