-- ==== Sys2Proof/Machine/Operands.lean ====
section
/-! DEFINITION. Operand forms: the value registers, the constants among them, and the immediate as a shift count
(10_state.md rules R26 to R29, 30_encoding.md rules R73, R74, 41_bitwise_shift.md rule R130). -/

namespace Sys2Proof

/-- The effective shift count: the native count taken modulo 64, in `0..63` also for a negative count (R130). -/
def shiftCount (n : Native) : Nat := (n.toInt % 64).toNat

namespace Machine

/-- Read value register `x[r]`: the hardwired constants for `0..5` (R27), storage for `6..15` (R28). -/
def State.readReg (s : State) (r : RegIdx) : Int64Value :=
  match r.val with
  | 0 => .zero
  | 1 => .one
  | 2 => .two
  | 3 => .negOne
  | 4 => .minValue
  | 5 => .maxValue
  | k + 6 => s.gprs.getD k .zero

/-- Write value register `x[r]`, all three limbs together (R57). Nothing can change a constant (R27): no command and no
host action reaches this with `r < 6`. -/
def State.writeReg (s : State) (r : RegIdx) (v : Int64Value) : State :=
  if 6 ≤ r.val then { s with gprs := s.gprs.setIfInBounds (r.val - 6) v } else s

end Machine

end Sys2Proof
end

