-- ==== Sys2Proof/Machine/Ops.lean ====
section
/-! DEFINITION. The shared operations: taking a fault, acknowledging it, completing a command, performing one, reset
(30_encoding.md rule R95, 60_exceptions.md rules R274 to R276, 70_reset_and_hazards.md rule R301). -/

namespace Sys2Proof.Machine

/-- Fault entry (R274): `CAUSE` and `FAULT` are set, `FCMD` takes the word, no value register is written. The host sees
the `fault` level. -/
def State.faultEntry (s : State) (cause : Cause) (cw : Word64) : State :=
  { s with status := statusWord true cause, fcmd := cw, answer := .faultLevel }

/-- The return from a fault, `H_ACK` (R276): `FAULT` and `CAUSE` are cleared; registers and `FCMD` keep their contents. -/
def State.acknowledge (s : State) : State :=
  { s with status := statusWord false .none, answer := .nothing }

/-- `H_RESET` (R301): `STATUS` and `FCMD` are 0 and the general registers hold free values (log entry 2). The host's
actions yet to come are the host's and stay. -/
def State.hostReset (s : State) : State :=
  { gprs := Vector.ofFn (fun i => limbs (Config.gprAfterReset s.resets i.val))
    status := 0
    fcmd := 0
    pending := s.pending
    answer := .nothing
    resets := s.resets + 1 }

/-- A command completes with one result (R95). -/
def State.complete (s : State) (rd : RegIdx) (result : Int64Value) : State :=
  { s.writeReg rd result with answer := .done }

/-- A `divMod` with `wr = 1` completes: both destinations in the same step (R57, R230). -/
def State.completePair (s : State) (rd rr : RegIdx) (quotient remainder : Int64Value) : State :=
  { (s.writeReg rd quotient).writeReg rr remainder with answer := .done }

/-- Issuing a word is enabled only while `STATUS.FAULT = 0` (R52, R275); otherwise the block takes no step. -/
def State.whenReady (s : State) (effect : Host.Outcome State Fault Refusal) : Host.Outcome State Fault Refusal :=
  if s.faulted then .fault .issueNotEnabled else effect

/-- Perform a word that is no command: IllegalCommand (R95, R272). -/
def performIllegal (cw : Word64) (s : State) : Host.Outcome State Fault Refusal :=
  s.whenReady (.next (s.faultEntry .illegalCommand cw))

/-- Perform a command (R95): an illegal destination raises IllegalCommand before anything is read (R272, R273; log
entry 6), otherwise the command has its effect. -/
def performCommand (i : Instr) (effect : State → State) (s : State) : Host.Outcome State Fault Refusal :=
  s.whenReady (if i.wellFormed then .next (effect s) else .next (s.faultEntry .illegalCommand (encode i)))

end Sys2Proof.Machine
end

