-- ==== Sys2Proof/Machine/Conversion.lean ====
section
/-! DEFINITION. Integer conversion: `fromInt32`, `toInt32` (40_conversion.md). `>>` is the flooring shift and `&` the
flooring mask of 00_scope.md rule R8: integer division by a power of two, and `BitVec.ofInt`. -/

namespace Sys2Proof

/-- `fromInt32(v)`: sign-extend a native integer into the three limbs (R110). -/
def fromInt32 (v : Native) : Int64Value where
  low := BitVec.ofInt 22 v.toInt
  mid := BitVec.ofInt 22 (v.toInt / 2 ^ 22)
  high := BitVec.ofInt 20 (v.toInt / 2 ^ 44)

/-- `toInt32(v)`: `low | (mid << 22)` in 32 bits, read as signed by its user (R112). -/
def toInt32 (v : Int64Value) : Native := BitVec.ofNat 32 (v.low.toNat ||| (v.mid.toNat <<< 22))

namespace Machine

/-- `fromInt32 rd, imm` (R111). -/
def execFromInt32 (rd : RegIdx) (imm : Native) (s : State) : Host.Outcome State Fault Refusal :=
  performCommand (.fromInt32 rd imm) (fun s => s.complete rd (fromInt32 imm)) s

/-- `toInt32 rd, ra`: the native result is delivered through `fromInt32` (R113, R114). -/
def execToInt32 (rd ra : RegIdx) (s : State) : Host.Outcome State Fault Refusal :=
  performCommand (.toInt32 rd ra) (fun s => s.complete rd (fromInt32 (toInt32 (s.readReg ra)))) s

end Machine

end Sys2Proof
end

