-- ==== Sys2Proof/Machine/AddSub.lean ====
section
/-! DEFINITION. Add, subtract, negate and compare (42_add_sub_neg_compare.md). Sums and differences are exact integers;
`>> 22` is division by `2^22` rounding down, and a limb is narrowed by `BitVec.ofNat` or `BitVec.ofInt`, which is the
mask (00_scope.md rule R8). -/

namespace Sys2Proof

/-- `add(a, b)`: the carry folds from `low` to `mid` to `high` and is then discarded (R150). -/
def Int64Value.add (a b : Int64Value) : Int64Value :=
  let s0 : Nat := a.low.toNat + b.low.toNat
  let s1 : Nat := a.mid.toNat + b.mid.toNat + s0 / 2 ^ 22
  let s2 : Nat := a.high.toNat + b.high.toNat + s1 / 2 ^ 22
  ⟨BitVec.ofNat 20 s2, BitVec.ofNat 22 s1, BitVec.ofNat 22 s0⟩

/-- `sub(a, b)`: the borrow is the flooring shift of a possibly negative difference (R152). -/
def Int64Value.sub (a b : Int64Value) : Int64Value :=
  let d0 : Int := (a.low.toNat : Int) - b.low.toNat
  let d1 : Int := (a.mid.toNat : Int) - b.mid.toNat + d0 / 2 ^ 22
  let d2 : Int := (a.high.toNat : Int) - b.high.toNat + d1 / 2 ^ 22
  ⟨BitVec.ofInt 20 d2, BitVec.ofInt 22 d1, BitVec.ofInt 22 d0⟩

/-- `neg(a)`: complement plus one with carry (R154). -/
def Int64Value.neg (a : Int64Value) : Int64Value :=
  let n0 : Nat := (~~~a.low).toNat + 1
  let n1 : Nat := (~~~a.mid).toNat + n0 / 2 ^ 22
  let n2 : Nat := (~~~a.high).toNat + n1 / 2 ^ 22
  ⟨BitVec.ofNat 20 n2, BitVec.ofNat 22 n1, BitVec.ofNat 22 n0⟩

/-- `compare(a, b)`: a native integer, `-1`, `0` or `1` (R161, decision D13). -/
def Int64Value.compare (a b : Int64Value) : Int :=
  if a.equal b then 0
  else if a.isNegative ≠ b.isNegative then (if a.isNegative then -1 else 1)
  else if a.high ≠ b.high then (if a.high.toNat > b.high.toNat then 1 else -1)
  else if a.mid ≠ b.mid then (if a.mid.toNat > b.mid.toNat then 1 else -1)
  else (if a.low.toNat > b.low.toNat then 1 else -1)

/-- `gte(a, b)` is `compare(a, b) >= 0` (R162). The long division names its test `r >= d` (R211) and writes it as the sign
of the trial difference, as `divisionLoop` does. -/
def Int64Value.gte (a b : Int64Value) : Bool := decide (0 ≤ a.compare b)

namespace Machine

/-- `add rd, ra, rb` (R151). -/
def execAdd (rd ra rb : RegIdx) (s : State) : Host.Outcome State Fault Refusal :=
  performCommand (.add rd ra rb) (fun s => s.complete rd ((s.readReg ra).add (s.readReg rb))) s

/-- `sub rd, ra, rb`: first source minus second source (R153). -/
def execSub (rd ra rb : RegIdx) (s : State) : Host.Outcome State Fault Refusal :=
  performCommand (.sub rd ra rb) (fun s => s.complete rd ((s.readReg ra).sub (s.readReg rb))) s

/-- `neg rd, ra` (R155). -/
def execNeg (rd ra : RegIdx) (s : State) : Host.Outcome State Fault Refusal :=
  performCommand (.neg rd ra) (fun s => s.complete rd (s.readReg ra).neg) s

/-- `compare rd, ra, rb`: the native result is delivered through `fromInt32` (R113, R163). -/
def execCompare (rd ra rb : RegIdx) (s : State) : Host.Outcome State Fault Refusal :=
  performCommand (.compare rd ra rb)
    (fun s => s.complete rd (fromInt32 (BitVec.ofInt 32 ((s.readReg ra).compare (s.readReg rb))))) s

end Machine

end Sys2Proof
end

