-- ==== Sys2Proof/Machine/Bitwise.lean ====
section
/-! DEFINITION. Limb-wise boolean commands: `and`, `or`, `xor`, `not` (41_bitwise_shift.md rules R120 to R124). -/

namespace Sys2Proof

/-- `and(a, b)` (R120). -/
def Int64Value.and (a b : Int64Value) : Int64Value := ⟨a.high &&& b.high, a.mid &&& b.mid, a.low &&& b.low⟩

/-- `or(a, b)` (R120). -/
def Int64Value.or (a b : Int64Value) : Int64Value := ⟨a.high ||| b.high, a.mid ||| b.mid, a.low ||| b.low⟩

/-- `xor(a, b)` (R120). -/
def Int64Value.xor (a b : Int64Value) : Int64Value := ⟨a.high ^^^ b.high, a.mid ^^^ b.mid, a.low ^^^ b.low⟩

/-- `not(a)`: each limb complemented inside its own width (R120). -/
def Int64Value.not (a : Int64Value) : Int64Value := ⟨~~~a.high, ~~~a.mid, ~~~a.low⟩

namespace Machine

/-- `and rd, ra, rb` (R121). -/
def execAnd (rd ra rb : RegIdx) (s : State) : Host.Outcome State Fault Refusal :=
  performCommand (.and rd ra rb) (fun s => s.complete rd ((s.readReg ra).and (s.readReg rb))) s

/-- `or rd, ra, rb` (R122). -/
def execOr (rd ra rb : RegIdx) (s : State) : Host.Outcome State Fault Refusal :=
  performCommand (.or rd ra rb) (fun s => s.complete rd ((s.readReg ra).or (s.readReg rb))) s

/-- `xor rd, ra, rb` (R123). -/
def execXor (rd ra rb : RegIdx) (s : State) : Host.Outcome State Fault Refusal :=
  performCommand (.xor rd ra rb) (fun s => s.complete rd ((s.readReg ra).xor (s.readReg rb))) s

/-- `not rd, ra` (R124). -/
def execNot (rd ra : RegIdx) (s : State) : Host.Outcome State Fault Refusal :=
  performCommand (.not rd ra) (fun s => s.complete rd (s.readReg ra).not) s

end Machine

end Sys2Proof
end

