-- ==== Sys2Proof/Machine/Shift.lean ====
section
/-! DEFINITION. Shift commands: `shl`, `shr`, `shru`, limb by limb (41_bitwise_shift.md rules R130 to R136; the third
case of `shl` as corrected there and in 90_conflicts.md C1). -/

namespace Sys2Proof

/-- `shl` by an effective count `s` in `0..63` (R131). -/
def Int64Value.shlBy (v : Int64Value) (s : Nat) : Int64Value :=
  if s < 22 then
    { low := BitVec.ofNat 22 (v.low.toNat <<< s)
      mid := BitVec.ofNat 22 ((v.mid.toNat <<< s) ||| (v.low.toNat >>> (22 - s)))
      high := BitVec.ofNat 20 ((v.high.toNat <<< s) ||| (v.mid.toNat >>> (22 - s))) }
  else if s < 44 then
    { low := 0
      mid := BitVec.ofNat 22 (v.low.toNat <<< (s - 22))
      high := BitVec.ofNat 20 ((v.mid.toNat <<< (s - 22)) ||| (v.low.toNat >>> (44 - s))) }
  else
    { low := 0
      mid := 0
      high := BitVec.ofNat 20 (v.low.toNat <<< (s - 44)) }

/-- `shr` by an effective count `s` in `0..63`: `hs` is `high` read as signed, and `p | (q << k)` with a possibly
negative `q` is the sum of R8, reduced by the mask (R133). -/
def Int64Value.shrBy (v : Int64Value) (s : Nat) : Int64Value :=
  let hs : Int := v.high.toInt
  if s < 22 then
    { high := BitVec.ofInt 20 (hs / 2 ^ s)
      mid := BitVec.ofInt 22 ((v.mid.toNat >>> s : Nat) + hs * 2 ^ (22 - s))
      low := BitVec.ofNat 22 ((v.low.toNat >>> s) ||| (v.mid.toNat <<< (22 - s))) }
  else if s < 44 then
    { high := if v.isNegative then 0xFFFFF else 0
      mid := BitVec.ofInt 22 (hs / 2 ^ (s - 22))
      low := BitVec.ofInt 22 ((v.mid.toNat >>> (s - 22) : Nat) + hs * 2 ^ (44 - s)) }
  else
    { high := if v.isNegative then 0xFFFFF else 0
      mid := if v.isNegative then 0x3FFFFF else 0
      low := BitVec.ofInt 22 (hs / 2 ^ (s - 44)) }

/-- `shru` by an effective count `s` in `0..63` (R135). -/
def Int64Value.shruBy (v : Int64Value) (s : Nat) : Int64Value :=
  if s < 22 then
    { high := BitVec.ofNat 20 (v.high.toNat >>> s)
      mid := BitVec.ofNat 22 ((v.mid.toNat >>> s) ||| (v.high.toNat <<< (22 - s)))
      low := BitVec.ofNat 22 ((v.low.toNat >>> s) ||| (v.mid.toNat <<< (22 - s))) }
  else if s < 44 then
    { high := 0
      mid := BitVec.ofNat 22 (v.high.toNat >>> (s - 22))
      low := BitVec.ofNat 22 ((v.mid.toNat >>> (s - 22)) ||| (v.high.toNat <<< (44 - s))) }
  else
    { high := 0
      mid := 0
      low := BitVec.ofNat 22 (v.high.toNat >>> (s - 44)) }

/-- `shl(v, n)` for a native count (R130, R131). -/
def Int64Value.shl (v : Int64Value) (n : Native) : Int64Value := v.shlBy (shiftCount n)

/-- `shr(v, n)` for a native count (R130, R133). -/
def Int64Value.shr (v : Int64Value) (n : Native) : Int64Value := v.shrBy (shiftCount n)

/-- `shru(v, n)` for a native count (R130, R135). -/
def Int64Value.shru (v : Int64Value) (n : Native) : Int64Value := v.shruBy (shiftCount n)

namespace Machine

/-- `shl rd, ra, n` (R132). -/
def execShl (rd ra : RegIdx) (n : Native) (s : State) : Host.Outcome State Fault Refusal :=
  performCommand (.shl rd ra n) (fun s => s.complete rd ((s.readReg ra).shl n)) s

/-- `shr rd, ra, n` (R134). -/
def execShr (rd ra : RegIdx) (n : Native) (s : State) : Host.Outcome State Fault Refusal :=
  performCommand (.shr rd ra n) (fun s => s.complete rd ((s.readReg ra).shr n)) s

/-- `shru rd, ra, n` (R136). -/
def execShru (rd ra : RegIdx) (n : Native) (s : State) : Host.Outcome State Fault Refusal :=
  performCommand (.shru rd ra n) (fun s => s.complete rd ((s.readReg ra).shru n)) s

end Machine

end Sys2Proof
end

