-- ==== Sys2Proof/Machine/Divide.lean ====
section
/-! DEFINITION. Divide with remainder (44_divmod.md): the value of rule R202, which defines `divMod`, and beside it the
seven-step procedure of rules R203 to R213, which must return the same pair. -/

namespace Sys2Proof

/-- The quotient for a non-zero divisor: truncates toward zero and wraps (R202). -/
def Int64Value.quotient (a b : Int64Value) : Int64Value := wrap (a.sval.tdiv b.sval)

/-- The remainder for a non-zero divisor: zero or of the dividend's sign (R202). -/
def Int64Value.remainder (a b : Int64Value) : Int64Value := wrap (a.sval - a.sval.tdiv b.sval * b.sval)

/-- `divMod(a, b)`: the pair, or none where the operation fails with DivideByZero (R202, R203, R221). -/
def Int64Value.divMod (a b : Int64Value) : Option (Int64Value × Int64Value) :=
  if b.isZero then none else some (a.quotient b, a.remainder b)

/-- `leadingZeros(v)`, limb by limb; 64 for `ZERO` by convention (R200). -/
def Int64Value.leadingZeros (v : Int64Value) : Nat :=
  if v.high ≠ 0 then 19 - v.high.toNat.log2
  else if v.mid ≠ 0 then 20 + 21 - v.mid.toNat.log2
  else if v.low ≠ 0 then 42 + 21 - v.low.toNat.log2
  else 64

/-- `powerOfTwo(v)`: the `k` in `0..62` with pattern `2^k`; none stands for the spec's -1 (R201). -/
def Int64Value.powerOfTwo (v : Int64Value) : Option Nat :=
  (List.range 63).find? (fun k => v.bits64 == BitVec.ofNat 64 (2 ^ k))

/-- The loop of R211. The first argument is `sh + 1`, so that 0 is the exit at `sh = -1`; the result is `(q, r)`. -/
def divisionLoop : Nat → (d q r : Int64Value) → Int64Value × Int64Value
  | 0, _, q, r => (q, r)
  | sh + 1, d, q, r =>
    let t := r.sub d
    if t.isNegative then divisionLoop sh (d.shruBy 1) q r
    else
      let q' := q.or (Int64Value.one.shlBy sh)
      if t.isZero then (q', t) else divisionLoop sh (d.shruBy 1) q' t

/-- Steps 4 to 6 on magnitudes: the fast path, the small dividend, or the loop (R207, R210, R211). -/
def magnitudeDivision (k : Option Nat) (a b : Int64Value) : Int64Value × Int64Value :=
  match k with
  | some k => (a.shrBy k, a.and (b.sub .one))
  | none =>
    if b.leadingZeros < a.leadingZeros then (.zero, a)
    else
      let sh := b.leadingZeros - a.leadingZeros
      divisionLoop (sh + 1) (b.shlBy sh) .zero a

/-- Step 7: the tracked sign flips, "negate, then subtract one" where the substitution was used (R212). -/
def applySigns (qneg aneg amin : Bool) (qr : Int64Value × Int64Value) : Int64Value × Int64Value :=
  let q := if qneg then qr.1.neg else qr.1
  let r := if aneg then qr.2.neg else qr.2
  (q, if aneg && amin then r.sub .one else r)

/-- The whole procedure (R213): none where step 1 fails with DivideByZero. -/
def Int64Value.divModByProcedure (a b : Int64Value) : Option (Int64Value × Int64Value) :=
  if b.isZero then none
  else if a.isZero then some (.zero, .zero)
  else if b.isMinValue then some (if a.isMinValue then (.one, .zero) else (.zero, a))
  else
    let qneg := b.isNegative
    let b' := if b.isNegative then b.neg else b
    let k := b'.powerOfTwo
    if a.isMinValue then
      match k with
      | some k => some (if qneg then (a.shrBy k).neg else a.shrBy k, .zero)
      | none => some (applySigns (!qneg) true true (magnitudeDivision none .maxValue b'))
    else if a.isNegative then some (applySigns (!qneg) true false (magnitudeDivision k a.neg b'))
    else some (applySigns qneg false false (magnitudeDivision k a b'))

namespace Machine

/-- `divMod rd, ra, rb` (`wr = 0`): the quotient only; no register receives a remainder. A zero divisor raises
DivideByZero and writes nothing (R220, R230, R271). -/
def execDivModQuotient (rd ra rb : RegIdx) (s : State) : Host.Outcome State Fault Refusal :=
  performCommand (.divModQuotient rd ra rb) (fun s =>
    match (s.readReg ra).divMod (s.readReg rb) with
    | none => s.faultEntry .divideByZero (encode (.divModQuotient rd ra rb))
    | some qr => s.complete rd qr.1) s

/-- `divMod rd, rr, ra, rb` (`wr = 1`): quotient and remainder in one step; both sources are read first. A zero divisor
raises DivideByZero and writes nothing (R230, R271). -/
def execDivModPair (rd rr ra rb : RegIdx) (s : State) : Host.Outcome State Fault Refusal :=
  performCommand (.divModPair rd rr ra rb) (fun s =>
    match (s.readReg ra).divMod (s.readReg rb) with
    | none => s.faultEntry .divideByZero (encode (.divModPair rd rr ra rb))
    | some qr => s.completePair rd rr qr.1 qr.2) s

end Machine

end Sys2Proof
end

