-- ==== Sys2Proof/Machine/Multiply.lean ====
section
/-! DEFINITION. Multiply (43_multiply.md): the value of rule R183, which defines `mul`, and beside it the construction
of rules R180 to R182, which must produce the same value. -/

namespace Sys2Proof

/-- `mul(a, b)`: the low 64 bits of the product of the patterns (R183). -/
def Int64Value.mul (a b : Int64Value) : Int64Value := limbs (a.bits64 * b.bits64)

/-- The five 13-bit chunks of a value, from its limbs (R180). -/
structure Chunks where
  c0 : Nat
  c1 : Nat
  c2 : Nat
  c3 : Nat
  c4 : Nat
  deriving DecidableEq, Repr

/-- Chunking, in terms of the limbs (R180). -/
def Int64Value.chunks (v : Int64Value) : Chunks where
  c0 := v.low.toNat &&& 0x1FFF
  c1 := (v.low.toNat >>> 13) ||| ((v.mid.toNat &&& 0xF) <<< 9)
  c2 := (v.mid.toNat >>> 4) &&& 0x1FFF
  c3 := (v.mid.toNat >>> 17) ||| ((v.high.toNat &&& 0xFF) <<< 5)
  c4 := v.high.toNat >>> 8

/-- The partial products grouped by weight `2^(13k)` (R181). -/
structure PartialProducts where
  p0 : Nat
  p1 : Nat
  p2 : Nat
  p3 : Nat
  p4 : Nat
  deriving DecidableEq, Repr

/-- The fifteen products with `i + j <= 4`; the other ten have weight `2^65` or more (R181). -/
def partialProducts (a b : Chunks) : PartialProducts where
  p0 := a.c0 * b.c0
  p1 := a.c1 * b.c0 + a.c0 * b.c1
  p2 := a.c2 * b.c0 + a.c1 * b.c1 + a.c0 * b.c2
  p3 := a.c3 * b.c0 + a.c2 * b.c1 + a.c1 * b.c2 + a.c0 * b.c3
  p4 := a.c4 * b.c0 + a.c3 * b.c1 + a.c2 * b.c2 + a.c1 * b.c3 + a.c0 * b.c4

/-- Accumulation into the three limbs with the carries `c0 → c1 → c2` (R182). -/
def accumulate (p : PartialProducts) : Int64Value :=
  let c0 := (p.p0 &&& 0x3FFFFF) + ((p.p1 &&& 0x1FF) <<< 13)
  let c1 := (p.p0 >>> 22) + (p.p1 >>> 9) + ((p.p2 &&& 0x3FFFF) <<< 4) + ((p.p3 &&& 0x1F) <<< 17) + (c0 >>> 22)
  let c2 := (p.p2 >>> 18) + (p.p3 >>> 5) + ((p.p4 &&& 0xFFF) <<< 8) + (c1 >>> 22)
  ⟨BitVec.ofNat 20 c2, BitVec.ofNat 22 c1, BitVec.ofNat 22 c0⟩

/-- Multiplication by the document's construction (R180 to R182). -/
def Int64Value.mulByChunks (a b : Int64Value) : Int64Value := accumulate (partialProducts a.chunks b.chunks)

namespace Machine

/-- `mul rd, ra, rb` (R184). -/
def execMul (rd ra rb : RegIdx) (s : State) : Host.Outcome State Fault Refusal :=
  performCommand (.mul rd ra rb) (fun s => s.complete rd ((s.readReg ra).mul (s.readReg rb))) s

end Machine

end Sys2Proof
end

