-- ==== Sys2Proof/Machine/Dispatch.lean ====
section
/-! DEFINITION. One arm per command: performing it in the ready state, IllegalCommand for an illegal destination. -/

namespace Sys2Proof.Machine

def exec (i : Instr) (s : State) : Host.Outcome State Fault Refusal :=
  match i with
  | .fromInt32 rd imm => Sys2Proof.Machine.execFromInt32 rd imm s
  | .toInt32 rd ra => Sys2Proof.Machine.execToInt32 rd ra s
  | .add rd ra rb => Sys2Proof.Machine.execAdd rd ra rb s
  | .sub rd ra rb => Sys2Proof.Machine.execSub rd ra rb s
  | .neg rd ra => Sys2Proof.Machine.execNeg rd ra s
  | .mul rd ra rb => Sys2Proof.Machine.execMul rd ra rb s
  | .divModQuotient rd ra rb => Sys2Proof.Machine.execDivModQuotient rd ra rb s
  | .divModPair rd rr ra rb => Sys2Proof.Machine.execDivModPair rd rr ra rb s
  | .shl rd ra n => Sys2Proof.Machine.execShl rd ra n s
  | .shr rd ra n => Sys2Proof.Machine.execShr rd ra n s
  | .shru rd ra n => Sys2Proof.Machine.execShru rd ra n s
  | .and rd ra rb => Sys2Proof.Machine.execAnd rd ra rb s
  | .or rd ra rb => Sys2Proof.Machine.execOr rd ra rb s
  | .xor rd ra rb => Sys2Proof.Machine.execXor rd ra rb s
  | .not rd ra => Sys2Proof.Machine.execNot rd ra s
  | .compare rd ra rb => Sys2Proof.Machine.execCompare rd ra rb s

end Sys2Proof.Machine
end

