-- ==== Sys2Proof/Machine/HostPort.lean ====
section
/-! DEFINITION. The host's six actions, each with the condition under which the block takes it (20_memory.md rules R52 to
R54, 60_exceptions.md rules R275, R276), and a run (70_reset_and_hazards.md rule R309). -/

namespace Sys2Proof.Machine

/-- `perform(cw)`, the effect of `H_ISSUE(cw)` (R95). -/
def performWord (cw : Word64) (s : State) : Host.Outcome State Fault Refusal :=
  match decode cw with
  | .ok i => exec i s
  | .error _ => performIllegal cw s

/-- `H_WRITE(i, B)` (R52, R53): the general registers only, and only while `STATUS.FAULT = 0`. -/
def hostWrite (r : RegIdx) (b : Word64) (s : State) : Host.Outcome State Fault Refusal :=
  if r.isGeneral then
    if s.faulted then .fault .writeNotEnabled
    else .next { s.writeReg r (limbs b) with answer := .nothing }
  else .refused .writeToConstant

/-- `H_READ(i)` (R52, R54): enabled in the fault state too, and without side effects. -/
def hostRead (r : RegIdx) (s : State) : State := { s with answer := .pattern (s.readReg r).bits64 }

/-- `H_STATUS` (R52): `STATUS` and `FCMD`. -/
def hostStatus (s : State) : State := { s with answer := .statusAndCommand s.readStatus s.fcmd }

/-- `H_ACK` (R52, R276): enabled only while `STATUS.FAULT = 1`. -/
def hostAck (s : State) : Host.Outcome State Fault Refusal :=
  if s.faulted then .next s.acknowledge else .fault .ackNotEnabled

/-- One host action on the block (R52). -/
def hostAction (a : HostAction) (s : State) : Host.Outcome State Fault Refusal :=
  match a with
  | .reset => .next s.hostReset
  | .write r b => hostWrite r b s
  | .read r => .next (hostRead r s)
  | .issue cw => performWord cw s
  | .status => .next (hostStatus s)
  | .ack => hostAck s

/-- One step: the host's next action, or, with none, the block is idle and keeps all its state (R59, R287). -/
def stepAction (s : State) : Host.Outcome State Fault Refusal :=
  match s.pending with
  | [] => .next s
  | a :: rest => hostAction a { s with pending := rest }

/-- A run from index `ci` (R309): the words are issued in order until the list is exhausted or a fault stands. -/
def runFrom (s : State) (ci : Nat) : List Word64 → State × Nat
  | [] => (s, ci)
  | cw :: rest =>
    if s.faulted then (s, ci)
    else
      match performWord cw s with
      | .next s' => if s'.faulted then (s', ci) else runFrom s' (ci + 1) rest
      | .fault _ => (s, ci)
      | .refused _ => (s, ci)

/-- `run(s0, cmds)` (R309): the end state and the host's command index `ci`. -/
def run (s0 : State) (cmds : List Word64) : State × Nat := runFrom s0 0 cmds

end Sys2Proof.Machine
end

