-- ==== Sys2Proof/Machine/Step.lean ====
section
/-! DEFINITION. One step of the machine, and how an instruction is placed where the next step takes it. -/

namespace Sys2Proof.Machine

/-- One step: the next host action (20_memory.md rule R59). -/
def step (s : State) : Host.Outcome State Fault Refusal := stepAction s

/-- The state whose next step issues the command word `w`: there is no fetch, the host passes the word by value
(10_state.md rule R30; log entry 3). A command is one 64-bit word, so `nbits` selects nothing. -/
def State.withFetchWord (s : State) (_nbits w : Nat) : State :=
  { s with pending := .issue (BitVec.ofNat 64 w) :: s.pending }

end Sys2Proof.Machine
end

