-- ==== Sys2Proof/Machine/Software.lean ====
section
/-! DEFINITION. The software layer's reference functions (45_software_layer.md): pure functions over values with no
opcode. No command or host action of the block reaches them (00_scope.md rule R4). A double is the IEEE 754 binary64
format, rounding to nearest with ties to even (G1 of 93_implementation_defined.md; log entry 9, PRESUMED). -/

namespace Sys2Proof

/-- What a double stands for: a finite one is `± mantissa * 2^exponent`. -/
inductive Double where
  | nan
  | infinity (negative : Bool)
  | finite (negative : Bool) (mantissa : Nat) (exponent : Int)
  deriving DecidableEq, Repr

/-- A binary64 pattern: 1 sign bit, 11 exponent bits, 52 stored fraction bits (G1). -/
def doubleOfPattern (p : Word64) : Double :=
  let e := (p.extractLsb' 52 11).toNat
  let f := (p.extractLsb' 0 52).toNat
  if e = 2047 then (if f = 0 then .infinity p.msb else .nan)
  else if e = 0 then .finite p.msb f (-1074)
  else .finite p.msb (f + 2 ^ 52) ((e : Int) - 1075)

/-- `fromDouble(d)`: NaN gives `ZERO`, out of range saturates, otherwise truncate toward zero; an infinity falls under
the range comparisons (R250, R251). -/
def Double.toValue : Double → Int64Value
  | .nan => .zero
  | .infinity negative => if negative then .minValue else .maxValue
  | .finite negative m e =>
    let num := m * 2 ^ e.toNat
    let den := 2 ^ (-e).toNat
    if negative && decide (num > 2 ^ 63 * den) then .minValue
    else if !negative && decide (num ≥ 2 ^ 63 * den) then .maxValue
    else if negative then wrap (-((num / den : Nat) : Int))
    else wrap ((num / den : Nat) : Int)

/-- `fromDouble` of a binary64 pattern (R250). -/
def fromDouble (p : Word64) : Int64Value := (doubleOfPattern p).toValue

/-- A natural number below `2^64` as the significand bits and exponent of a non-negative binary64, rounded to nearest,
ties to even; rounding up to the next power of two carries into the exponent (R253, G1). -/
def doublePatternOfNat (x : Nat) : Nat :=
  if x = 0 then 0
  else
    let l := x.log2
    if l ≤ 52 then ((1023 + l) <<< 52) + (x * 2 ^ (52 - l) - 2 ^ 52)
    else
      let ulp := 2 ^ (l - 52)
      let q := x / ulp
      let r := x % ulp
      let q' := if 2 * r > ulp || (2 * r == ulp && q % 2 == 1) then q + 1 else q
      ((1023 + l) <<< 52) + (q' - 2 ^ 52)

/-- `toDouble(v)`: the double of `low + mid*2^22 + high*2^44` of the magnitude, negated for a negative value (R252). -/
def toDouble (v : Int64Value) : Word64 :=
  let m := if v.isNegative then v.neg else v
  let x := m.low.toNat + m.mid.toNat * 2 ^ 22 + m.high.toNat * 2 ^ 44
  BitVec.ofBool v.isNegative ++ BitVec.ofNat 63 (doublePatternOfNat x)

/-- The decimal digit of `d < 10`. -/
def digitChar (d : Nat) : Char := Char.ofNat (48 + d)

/-- The last `width` decimal digits of `n`, most significant first. -/
def paddedDigits : (width n : Nat) → List Char
  | 0, _ => []
  | width + 1, n => paddedDigits width (n / 10) ++ [digitChar (n % 10)]

/-- The nine digits of a chunk, without padding when it is the leading one (R254, R255). -/
def chunkDigits (leading : Bool) (n : Nat) : List Char :=
  if leading then (paddedDigits 9 n).dropWhile (· == '0') else paddedDigits 9 n

/-- The loop of R254, for at most `fuel` divisions: each chunk is prepended to `acc`. -/
def decimalLoop : (fuel : Nat) → Int64Value → (acc : List Char) → List Char
  | 0, _, acc => acc
  | fuel + 1, v, acc =>
    if v.isZero then acc
    else
      match v.divMod (fromInt32 1000000000) with
      | none => acc
      | some (q, r) => decimalLoop fuel q (chunkDigits q.isZero (toInt32 r).toInt.toNat ++ acc)

/-- The numeral of a positive value: at most three divisions are needed (R254). -/
def positiveDecimal (v : Int64Value) : List Char := decimalLoop 3 v []

/-- `toDecimalString(v)` as a list of characters (R254). -/
def toDecimalString (v : Int64Value) : List Char :=
  if v.isZero then ['0']
  else if v.isMinValue then
    ['-', '9', '2', '2', '3', '3', '7', '2', '0', '3', '6', '8', '5', '4', '7', '7', '5', '8', '0', '8']
  else if v.isNegative then '-' :: positiveDecimal v.neg
  else positiveDecimal v

end Sys2Proof
end

