-- ==== Sys2Proof/Safety.lean ====
section
/-! DEFINITION. The terms statements are made in: a command that completes, a fault taken, a safe state, an enabled
action, a completed and a faulted run, what a numeral and a double denote. -/

namespace Sys2Proof

/-- The rational number a finite double stands for. -/
def finiteDoubleValue (negative : Bool) (mantissa : Nat) (exponent : Int) : ℚ :=
  (if negative then -1 else 1) * mantissa * (2 : ℚ) ^ exponent

/-- The number a list of decimal digits denotes. -/
def naturalNumeral (digits : List Char) : Nat := digits.foldl (fun n c => 10 * n + (c.toNat - 48)) 0

/-- The integer a decimal numeral denotes: what the external parser of R257 must read from it. -/
def decimalValue (numeral : List Char) : Int :=
  if numeral.head? = some '-' then -(naturalNumeral numeral.tail : Int) else naturalNumeral numeral

namespace Machine

/-- `t` is `s` after a command that wrote `v` to `rd` and changed nothing else the spec gives the machine: every other
value register, `STATUS` and `FCMD` are as before (R29, R95), and the host is told `done` (R52). -/
def WroteOnly (s t : State) (rd : RegIdx) (v : Int64Value) : Prop :=
  t.readReg rd = v ∧ (∀ r, r ≠ rd → t.readReg r = s.readReg r) ∧
    t.status = s.status ∧ t.fcmd = s.fcmd ∧ t.pending = s.pending ∧ t.resets = s.resets ∧ t.answer = .done

/-- `t` is `s` after a command that wrote `q` to `rd` and `r` to `rr` in one step and changed nothing else (R57, R230). -/
def WroteBoth (s t : State) (rd rr : RegIdx) (q r : Int64Value) : Prop :=
  t.readReg rd = q ∧ t.readReg rr = r ∧ (∀ x, x ≠ rd → x ≠ rr → t.readReg x = s.readReg x) ∧
    t.status = s.status ∧ t.fcmd = s.fcmd ∧ t.pending = s.pending ∧ t.resets = s.resets ∧ t.answer = .done

/-- `t` is `s` after fault entry with this cause and word: no value register is written, `FAULT = 1`, `CAUSE` and `FCMD`
are set and nothing else changes (R274). -/
def TookFault (s t : State) (cause : Cause) (cw : Word64) : Prop :=
  (∀ r, t.readReg r = s.readReg r) ∧ t.faulted = true ∧ t.causeCode = cause.code ∧ t.fcmd = cw ∧
    t.readStatus = statusWord true cause ∧ t.pending = s.pending ∧ t.resets = s.resets ∧ t.answer = .faultLevel

/-- The word is a legal `divMod` whose divisor register is zero in this state: the condition of DivideByZero (R271). -/
def State.dividesByZero (s : State) (cw : Word64) : Bool :=
  match decode cw with
  | .ok i =>
    match i.divisor with
    | some rb => i.wellFormed && (s.readReg rb).isZero
    | none => false
  | .error _ => false

/-- The invariant of the block: `STATUS` holds no fault, or the fault it reports is what `FCMD` and the registers still
show: a legal `divMod` with a zero divisor, or an illegal word (R34, R35, R270, R274, R275). -/
def State.Inv (s : State) : Prop :=
  s.status = 0 ∨
  (s.status = statusWord true .divideByZero ∧ s.dividesByZero s.fcmd = true) ∨
  (s.status = statusWord true .illegalCommand ∧ legal s.fcmd = false)

/-- The condition under which the block takes an action (R52, R53, R275). -/
def State.enabled (s : State) (a : HostAction) : Bool :=
  match a with
  | .reset => true
  | .write r _ => r.isGeneral && !s.faulted
  | .read _ => true
  | .issue _ => !s.faulted
  | .status => true
  | .ack => s.faulted

/-- A run that completed: every word was performed and no fault stands (R309). -/
def Completed (cmds : List Word64) (result : State × Nat) : Prop :=
  result.2 = cmds.length ∧ result.1.faulted = false

/-- A run that ended at a fault: `ci` is the index of the faulting word, which `FCMD` holds (R309). -/
def Faulted (cmds : List Word64) (result : State × Nat) : Prop :=
  result.1.faulted = true ∧ cmds[result.2]? = some result.1.fcmd

end Machine

end Sys2Proof
end

