-- ==== Sys2Proof/Certificates/Slice0/Obligations.lean ====
section
/-! DEFINITION. The statements for the provers. Each docstring names the rule of spec/ it formalises. -/

open Sys2Proof Sys2Proof.Machine

/-! ## Encoding (30_encoding.md) -/

/-- The worked encodings of R98 decode to the commands they stand for, and its illegal words are illegal. -/
def Obligations.WorkedEncodingsDecode : Prop :=
  decode 0x0470610000000000 = .ok (.add 7 6 1) ∧ decode 0x00600000FFFFFFFF = .ok (.fromInt32 6 (-1)) ∧
  decode 0x0060000000000064 = .ok (.fromInt32 6 100) ∧ decode 0x0370600000000000 = .ok (.toInt32 7 6) ∧
  decode 0x097010000000003F = .ok (.shl 7 1 63) ∧ decode 0x0A806000FFFFFFFF = .ok (.shr 8 6 (-1)) ∧
  decode 0x0F60300000000000 = .ok (.not 6 3) ∧ decode 0x1060450000000000 = .ok (.compare 6 4 5) ∧
  decode 0x0889670100000000 = .ok (.divModPair 8 9 6 7) ∧ decode 0x0880670000000000 = .ok (.divModQuotient 8 6 7) ∧
  decode 0x0D70600000000000 = .ok (.or 7 6 0) ∧
  legal 0x0000000000000000 = false ∧ legal 0x0100000000000000 = false ∧ legal 0x0470610000000001 = false ∧
  legal 0x0450610000000000 = false ∧ legal 0x0888670100000000 = false ∧ legal 0x0889670000000000 = false ∧
  legal 0x0470610200000000 = false

/-- Decode and encode agree: every command, with every operand at every value, is read back from its word (R71, R92). -/
def Obligations.DecodeOfEncodeIsTheCommand : Prop := ∀ i : Instr, decode (encode i) = .ok i

/-- Each word is the word of at most one command: what it decodes to encodes to it, no bit dropped (R92). -/
def Obligations.EncodeOfDecodeIsTheWord : Prop := ∀ (cw : Word64) (i : Instr), decode cw = .ok i → encode i = cw

/-- R81: a word decodes to a command of a table row exactly when it has the row's match under the row's mask. -/
def Obligations.DecoderIsMatchUnderMask : Prop :=
  ∀ (cw : Word64) (i : Instr), cw &&& i.row.2 = i.row.1 ↔ ∃ j, decode cw = .ok j ∧ j.row = i.row

/-- R90: a word is legal exactly when the four checks pass, written here over its fields; an illegal word raises
IllegalCommand in every ready state. -/
def Obligations.LegalIsTheFourChecks : Prop :=
  ∀ cw : Word64,
    (legal cw = true ↔
      let f := fieldsOf cw
      let op := f.op.toNat
      (op = 0x00 ∨ (0x03 ≤ op ∧ op ≤ 0x10)) ∧
      (f.z = 0 ∧ (op ≠ 0x08 → f.wr = 0) ∧
        (op ≠ 0x00 → op ≠ 0x09 → op ≠ 0x0A → op ≠ 0x0B → f.imm = 0) ∧
        ((op = 0x00 ∨ op = 0x03 ∨ op = 0x06 ∨ op = 0x0F ∨ op = 0x09 ∨ op = 0x0A ∨ op = 0x0B) → f.rb = 0) ∧
        (op = 0x00 → f.ra = 0) ∧ (¬(op = 0x08 ∧ f.wr = 1) → f.rr = 0)) ∧
      6 ≤ f.rd.toNat ∧
      (op = 0x08 → f.wr = 1 → 6 ≤ f.rr.toNat ∧ f.rr ≠ f.rd)) ∧
    ∀ s : State, s.faulted = false → legal cw = false →
      ∃ t, performWord cw s = .next t ∧ TookFault s t .illegalCommand cw

/-- R91: a word with a reserved or unassigned opcode is illegal whatever its other fields hold, and raises
IllegalCommand; so are the all-zero and the all-ones word. -/
def Obligations.ReservedOpcodesAreIllegal : Prop :=
  (∀ (cw : Word64) (s : State), s.faulted = false →
    ((fieldsOf cw).op = 0x01 ∨ (fieldsOf cw).op = 0x02 ∨ 0x11 ≤ (fieldsOf cw).op.toNat) →
    legal cw = false ∧ ∃ t, performWord cw s = .next t ∧ TookFault s t .illegalCommand cw) ∧
  (decode 0x0000000000000000 = .ok (.fromInt32 0 0) ∧ legal 0x0000000000000000 = false) ∧
  decode 0xFFFFFFFFFFFFFFFF = .error .reservedOpcode ∧ legal 0xFFFFFFFFFFFFFFFF = false

/-- A step at an issued word runs the command it decodes to, with the action taken off the host's list and nothing else
added; a word that is no command raises IllegalCommand (R62, R95). -/
def Obligations.StepRunsTheDecodedCommand : Prop :=
  ∀ (s : State) (cw : Word64) (rest : List HostAction), s.pending = .issue cw :: rest →
    (∀ i, decode cw = .ok i → step s = exec i { s with pending := rest }) ∧
    (∀ e, decode cw = .error e → s.faulted = false →
      step s = .next (State.faultEntry { s with pending := rest } .illegalCommand cw))

/-! ## What each command does: it completes, its result, and its frame (`WroteOnly`, `WroteBoth`) -/

/-- R111: `x[rd]` becomes the immediate with bit 31 copied into bits 63 to 32. -/
def Obligations.FromInt32WritesSignExtension : Prop :=
  ∀ (s : State) (rd : RegIdx) (imm : Native), s.faulted = false → rd.isGeneral = true →
    ∃ t, exec (.fromInt32 rd imm) s = .next t ∧ WroteOnly s t rd (limbs (imm.signExtend 64))

/-- R114: `x[rd]` becomes bits 31 to 0 of the source with bit 31 copied into bits 63 to 32. -/
def Obligations.ToInt32WritesTruncation : Prop :=
  ∀ (s : State) (rd ra : RegIdx), s.faulted = false → rd.isGeneral = true →
    ∃ t, exec (.toInt32 rd ra) s = .next t ∧
      WroteOnly s t rd (limbs (((s.readReg ra).bits64.extractLsb' 0 32).signExtend 64))

/-- R150, R151: the wrapped sum. -/
def Obligations.AddWritesWrappedSum : Prop :=
  ∀ (s : State) (rd ra rb : RegIdx), s.faulted = false → rd.isGeneral = true →
    ∃ t, exec (.add rd ra rb) s = .next t ∧
      WroteOnly s t rd (wrap ((s.readReg ra).sval + (s.readReg rb).sval))

/-- R152, R153: the wrapped difference, first source minus second. -/
def Obligations.SubWritesWrappedDifference : Prop :=
  ∀ (s : State) (rd ra rb : RegIdx), s.faulted = false → rd.isGeneral = true →
    ∃ t, exec (.sub rd ra rb) s = .next t ∧
      WroteOnly s t rd (wrap ((s.readReg ra).sval - (s.readReg rb).sval))

/-- R154, R155: the wrapped negation, `MIN_VALUE` included. -/
def Obligations.NegWritesWrappedNegation : Prop :=
  ∀ (s : State) (rd ra : RegIdx), s.faulted = false → rd.isGeneral = true →
    ∃ t, exec (.neg rd ra) s = .next t ∧ WroteOnly s t rd (wrap (-(s.readReg ra).sval))

/-- R183, R184: the wrapped product of the signed values. -/
def Obligations.MulWritesWrappedProduct : Prop :=
  ∀ (s : State) (rd ra rb : RegIdx), s.faulted = false → rd.isGeneral = true →
    ∃ t, exec (.mul rd ra rb) s = .next t ∧
      WroteOnly s t rd (wrap ((s.readReg ra).sval * (s.readReg rb).sval))

/-- R230 with `wr = 0`: for a non-zero divisor the truncated quotient is written and no register receives a remainder. -/
def Obligations.DivModQuotientWritesQuotient : Prop :=
  ∀ (s : State) (rd ra rb : RegIdx), s.faulted = false → rd.isGeneral = true → (s.readReg rb).sval ≠ 0 →
    ∃ t, exec (.divModQuotient rd ra rb) s = .next t ∧
      WroteOnly s t rd (wrap ((s.readReg ra).sval.tdiv (s.readReg rb).sval))

/-- R230 with `wr = 1`: for a non-zero divisor quotient and remainder are written in one step, both computed from the
old contents; the remainder is exact and the pair reconstructs the dividend. -/
def Obligations.DivModPairWritesBoth : Prop :=
  ∀ (s : State) (rd rr ra rb : RegIdx), s.faulted = false → rd.isGeneral = true → rr.isGeneral = true → rr ≠ rd →
    (s.readReg rb).sval ≠ 0 →
    ∃ t r, exec (.divModPair rd rr ra rb) s = .next t ∧
      WroteBoth s t rd rr (wrap ((s.readReg ra).sval.tdiv (s.readReg rb).sval)) r ∧
      r.sval = (s.readReg ra).sval.tmod (s.readReg rb).sval ∧
      ((t.readReg rd).mul (s.readReg rb)).add (t.readReg rr) = s.readReg ra

/-- R131, R132: the pattern moved up by the count modulo 64. -/
def Obligations.ShlWritesShiftedPattern : Prop :=
  ∀ (s : State) (rd ra : RegIdx) (n : Native), s.faulted = false → rd.isGeneral = true →
    ∃ t, exec (.shl rd ra n) s = .next t ∧ WroteOnly s t rd (limbs ((s.readReg ra).bits64 <<< (n.toNat % 64)))

/-- R133, R134: the signed value divided by a power of two, rounded toward minus infinity. -/
def Obligations.ShrWritesFlooredQuotient : Prop :=
  ∀ (s : State) (rd ra : RegIdx) (n : Native), s.faulted = false → rd.isGeneral = true →
    ∃ t, exec (.shr rd ra n) s = .next t ∧ WroteOnly s t rd (wrap ((s.readReg ra).sval / 2 ^ (n.toNat % 64)))

/-- R135, R136: the pattern moved down by the count modulo 64 with zeros entering. -/
def Obligations.ShruWritesShiftedPattern : Prop :=
  ∀ (s : State) (rd ra : RegIdx) (n : Native), s.faulted = false → rd.isGeneral = true →
    ∃ t, exec (.shru rd ra n) s = .next t ∧ WroteOnly s t rd (limbs ((s.readReg ra).bits64 >>> (n.toNat % 64)))

/-- R120, R121: the conjunction of the patterns. -/
def Obligations.AndWritesPatternAnd : Prop :=
  ∀ (s : State) (rd ra rb : RegIdx), s.faulted = false → rd.isGeneral = true →
    ∃ t, exec (.and rd ra rb) s = .next t ∧
      WroteOnly s t rd (limbs ((s.readReg ra).bits64 &&& (s.readReg rb).bits64))

/-- R120, R122: the disjunction of the patterns. -/
def Obligations.OrWritesPatternOr : Prop :=
  ∀ (s : State) (rd ra rb : RegIdx), s.faulted = false → rd.isGeneral = true →
    ∃ t, exec (.or rd ra rb) s = .next t ∧
      WroteOnly s t rd (limbs ((s.readReg ra).bits64 ||| (s.readReg rb).bits64))

/-- R120, R123: the exclusive or of the patterns. -/
def Obligations.XorWritesPatternXor : Prop :=
  ∀ (s : State) (rd ra rb : RegIdx), s.faulted = false → rd.isGeneral = true →
    ∃ t, exec (.xor rd ra rb) s = .next t ∧
      WroteOnly s t rd (limbs ((s.readReg ra).bits64 ^^^ (s.readReg rb).bits64))

/-- R120, R124: the complement of the pattern, whose signed value is `-sval - 1` for every source. -/
def Obligations.NotWritesPatternComplement : Prop :=
  ∀ (s : State) (rd ra : RegIdx), s.faulted = false → rd.isGeneral = true →
    ∃ t, exec (.not rd ra) s = .next t ∧ WroteOnly s t rd (limbs (~~~(s.readReg ra).bits64)) ∧
      (t.readReg rd).sval = -(s.readReg ra).sval - 1

/-- R161, R163: `NEG_ONE`, `ZERO` or `ONE` in the order of the signed values. -/
def Obligations.CompareWritesSignedOrder : Prop :=
  ∀ (s : State) (rd ra rb : RegIdx), s.faulted = false → rd.isGeneral = true →
    ∃ t, exec (.compare rd ra rb) s = .next t ∧
      WroteOnly s t rd
        (if (s.readReg ra).sval < (s.readReg rb).sval then .negOne
         else if (s.readReg ra).sval = (s.readReg rb).sval then .zero else .one)

/-! ## Faults (60_exceptions.md) -/

/-- R271: a legal `divMod`, in either form, raises DivideByZero exactly when the divisor's three limbs are zero,
whatever the dividend is, and then writes neither destination. -/
def Obligations.DivideByZeroExactlyOnZeroDivisor : Prop :=
  ∀ (s : State) (i : Instr) (rb : RegIdx), i.divisor = some rb → i.wellFormed = true → s.faulted = false →
    ∃ t, exec i s = .next t ∧
      (((s.readReg rb).high = 0 ∧ (s.readReg rb).mid = 0 ∧ (s.readReg rb).low = 0 → TookFault s t .divideByZero (encode i)) ∧
       (t.faulted = true → (s.readReg rb).high = 0 ∧ (s.readReg rb).mid = 0 ∧ (s.readReg rb).low = 0))

/-- R272: IllegalCommand is raised exactly by the words that fail a check of R90, whatever the registers hold, also for
a `divMod` whose divisor is zero; a command with an illegal destination raises it with its own word. -/
def Obligations.IllegalCommandExactlyForIllegalWords : Prop :=
  (∀ (s : State) (cw : Word64), s.faulted = false →
    (legal cw = false ↔ ∃ t, performWord cw s = .next t ∧ TookFault s t .illegalCommand cw)) ∧
  (∀ (s : State) (i : Instr), s.faulted = false → i.wellFormed = false →
    ∃ t, exec i s = .next t ∧ TookFault s t .illegalCommand (encode i))

/-- R278: every legal command other than a `divMod` by zero completes without a fault, whatever its operands. -/
def Obligations.EveryOtherCommandIsTotal : Prop :=
  ∀ (s : State) (i : Instr), s.faulted = false → i.wellFormed = true →
    (∀ rb, i.divisor = some rb → (s.readReg rb).isZero = false) →
    ∃ t, exec i s = .next t ∧ t.faulted = false ∧ t.status = s.status ∧ t.fcmd = s.fcmd ∧ t.answer = .done

/-- R275: in the fault state no command is performed and no register write is accepted (the model stops by name, log
entry 5), while reading a register, reading the status, acknowledging and resetting are taken. -/
def Obligations.FaultStateTakesNoCommand : Prop :=
  ∀ s : State, s.faulted = true →
    (∀ cw, performWord cw s = .fault .issueNotEnabled) ∧
    (∀ i, exec i s = .fault .issueNotEnabled) ∧
    (∀ r b, RegIdx.isGeneral r = true → hostWrite r b s = .fault .writeNotEnabled) ∧
    (∀ r, ∃ t, hostAction (.read r) s = .next t) ∧ (∃ t, hostAction .status s = .next t) ∧
    (∃ t, hostAction .ack s = .next t) ∧ (∃ t, hostAction .reset s = .next t)

/-- R29, R274: a command writes no value register but its destinations, and none at all when it faults; the host's list
and the reset count are never touched by a command. -/
def Obligations.CommandsWriteOnlyTheirDestinations : Prop :=
  ∀ (s t : State) (i : Instr), exec i s = .next t →
    (∀ r, r ∉ i.destinations → t.readReg r = s.readReg r) ∧
    (t.faulted = true → ∀ r, t.readReg r = s.readReg r) ∧
    t.pending = s.pending ∧ t.resets = s.resets

/-- R29, R33, R95: what a command does depends on nothing but its word and the contents of its source registers: two
ready states that agree on those give the same fault or the same results. -/
def Obligations.ResultDependsOnSourcesOnly : Prop :=
  ∀ (s₁ s₂ t₁ : State) (i : Instr), (∀ r ∈ i.sources, s₁.readReg r = s₂.readReg r) → s₂.faulted = false →
    exec i s₁ = .next t₁ →
    ∃ t₂, exec i s₂ = .next t₂ ∧ t₂.faulted = t₁.faulted ∧ t₂.answer = t₁.answer ∧
      (t₁.faulted = false → ∀ r ∈ i.destinations, t₂.readReg r = t₁.readReg r) ∧
      (t₁.faulted = true → t₂.fcmd = t₁.fcmd ∧ t₂.status = t₁.status)

/-! ## Values and operations -/

/-- R25, R27: the constant registers read as the named constants, limbs, pattern and signed value, in every state. -/
def Obligations.ConstantRegistersReadAsNamed : Prop :=
  ∀ s : State,
    s.readReg 0 = ⟨0x00000, 0x000000, 0x000000⟩ ∧ s.readReg 1 = ⟨0x00000, 0x000000, 0x000001⟩ ∧
    s.readReg 2 = ⟨0x00000, 0x000000, 0x000002⟩ ∧ s.readReg 3 = ⟨0xFFFFF, 0x3FFFFF, 0x3FFFFF⟩ ∧
    s.readReg 4 = ⟨0x80000, 0x000000, 0x000000⟩ ∧ s.readReg 5 = ⟨0x7FFFF, 0x3FFFFF, 0x3FFFFF⟩ ∧
    (s.readReg 0).bits64 = 0x0000000000000000 ∧ (s.readReg 0).sval = 0 ∧
    (s.readReg 1).bits64 = 0x0000000000000001 ∧ (s.readReg 1).sval = 1 ∧
    (s.readReg 2).bits64 = 0x0000000000000002 ∧ (s.readReg 2).sval = 2 ∧
    (s.readReg 3).bits64 = 0xFFFFFFFFFFFFFFFF ∧ (s.readReg 3).sval = -1 ∧
    (s.readReg 4).bits64 = 0x8000000000000000 ∧ (s.readReg 4).sval = -9223372036854775808 ∧
    (s.readReg 5).bits64 = 0x7FFFFFFFFFFFFFFF ∧ (s.readReg 5).sval = 9223372036854775807

/-- R9, R22: the pattern is `low + mid * 2^22 + high * 2^44` and the limbs are its fields; the sign is bit 63 of it and bit
19 of `high`; the signed value lies in `-2^63 .. 2^63-1` and wraps back to the value; wrapping keeps the residue modulo
`2^64`; two values are equal when their limbs are, which is when their patterns are. -/
def Obligations.ViewsOfAValueAgree : Prop :=
  (∀ v : Int64Value,
    v.bits64.toNat = v.low.toNat + v.mid.toNat * 2 ^ 22 + v.high.toNat * 2 ^ 44 ∧
    v.low = v.bits64.extractLsb' 0 22 ∧ v.mid = v.bits64.extractLsb' 22 22 ∧ v.high = v.bits64.extractLsb' 44 20 ∧
    v.isNegative = v.high.getLsbD 19 ∧ v.isNegative = v.bits64.getLsbD 63 ∧ (v.isNegative = true ↔ v.sval < 0) ∧
    (v.isNegative = true ↔ 2 ^ 19 ≤ v.high.toNat) ∧
    v.sval = (if v.high.getLsbD 19 then (v.bits64.toNat : Int) - 2 ^ 64 else (v.bits64.toNat : Int)) ∧
    -2 ^ 63 ≤ v.sval ∧ v.sval < 2 ^ 63 ∧ wrap v.sval = v ∧ limbs v.bits64 = v) ∧
  (∀ b : Word64, (limbs b).bits64 = b) ∧
  (∀ n : Int, ((wrap n).bits64.toNat : Int) = n % 2 ^ 64 ∧ (wrap n).sval = n.bmod (2 ^ 64)) ∧
  (∀ a b : Int64Value, (a = b ↔ a.low = b.low ∧ a.mid = b.mid ∧ a.high = b.high) ∧ (a = b ↔ a.bits64 = b.bits64))

/-- R130: the effective count is the native count modulo 64, also for a negative count: its low six bits. -/
def Obligations.ShiftCountIsLowSixBits : Prop :=
  (∀ n : Native, (shiftCount n : Int) = n.toInt % 64 ∧ shiftCount n = (n.extractLsb' 0 6).toNat ∧ shiftCount n < 64) ∧
  shiftCount 64 = 0 ∧ shiftCount 65 = 1 ∧ shiftCount (-1) = 63 ∧ shiftCount (-64) = 0 ∧ shiftCount 127 = 63 ∧
  shiftCount 1000 = 40

/-- R110, R112, R115: `fromInt32` has the limbs of R110, keeps the signed value and is injective; `toInt32` takes the low 32
bits of the pattern; the round trip from a native integer is exact, the other is exact in range only and else differs in
the upper half. -/
def Obligations.ConversionsRoundTrip : Prop :=
  (∀ i : Native,
    ((fromInt32 i).low.toNat : Int) = i.toInt % 2 ^ 22 ∧ ((fromInt32 i).mid.toNat : Int) = i.toInt / 2 ^ 22 % 2 ^ 22 ∧
    ((fromInt32 i).high.toNat : Int) = i.toInt / 2 ^ 44 % 2 ^ 20 ∧
    (fromInt32 i).sval = i.toInt ∧ fromInt32 i = wrap i.toInt ∧ toInt32 (fromInt32 i) = i) ∧
  (∀ i j : Native, fromInt32 i = fromInt32 j → i = j) ∧
  (∀ v : Int64Value, (toInt32 v).toNat = (v.low.toNat + v.mid.toNat * 2 ^ 22) % 2 ^ 32 ∧
    toInt32 v = v.bits64.extractLsb' 0 32 ∧
    (fromInt32 (toInt32 v) = v ↔ -2 ^ 31 ≤ v.sval ∧ v.sval ≤ 2 ^ 31 - 1) ∧
    (fromInt32 (toInt32 v)).bits64.extractLsb' 0 32 = v.bits64.extractLsb' 0 32)

/-- R125: the laws of the bitwise operations. -/
def Obligations.BitwiseLaws : Prop :=
  ∀ a b c : Int64Value,
    a.and b = b.and a ∧ (a.and b).and c = a.and (b.and c) ∧
    a.or b = b.or a ∧ (a.or b).or c = a.or (b.or c) ∧
    a.xor b = b.xor a ∧ (a.xor b).xor c = a.xor (b.xor c) ∧
    a.or .zero = a ∧ a.and .negOne = a ∧ a.xor a = .zero ∧ a.not = a.xor .negOne ∧
    (a.and b).not = a.not.or b.not

/-- R137: the result of a shift depends on the count through its low six bits only; shifting by zero changes nothing;
shifts do not add across the mask; shifting there and back clears bits; `shr` and `shru` differ in their top bits, and
only for a negative value. -/
def Obligations.ShiftLaws : Prop :=
  (∀ (v : Int64Value) (n m : Native), n &&& 63 = m &&& 63 →
    v.shl n = v.shl m ∧ v.shr n = v.shr m ∧ v.shru n = v.shru m) ∧
  (∀ v : Int64Value, v.shl 0 = v ∧ v.shr 0 = v ∧ v.shru 0 = v ∧ (v.shl 32).shl 32 = .zero ∧ v.shl 64 = v) ∧
  (∀ (v : Int64Value) (s : Native), s.toNat ≤ 63 →
    ((v.shl s).shru s).bits64 = v.bits64 &&& (BitVec.allOnes 64 >>> s.toNat) ∧
    ((v.shru s).shl s).bits64 = v.bits64 &&& (BitVec.allOnes 64 <<< s.toNat) ∧
    (v.shr s).bits64 ^^^ (v.shru s).bits64 =
      if v.isNegative then BitVec.allOnes 64 <<< (64 - s.toNat) else 0)

/-- R156: the laws of add, subtract and negate, `MIN_VALUE` included. -/
def Obligations.AddSubNegLaws : Prop :=
  ∀ a b c : Int64Value,
    a.add b = b.add a ∧ (a.add b).add c = a.add (b.add c) ∧ a.add .zero = a ∧
    a.sub b = a.add b.neg ∧ a.add a.neg = .zero

/-- R164: `compare` is antisymmetric, zero exactly on equal patterns, a total and transitive order with `MIN_VALUE` least
and `MAX_VALUE` greatest, and not the sign of the difference. -/
def Obligations.CompareLaws : Prop :=
  (∀ a b c : Int64Value,
    a.compare b = -b.compare a ∧ (a.compare b = 0 ↔ a.bits64 = b.bits64) ∧
    (a.compare b ≤ 0 ∨ b.compare a ≤ 0) ∧ (a.compare b ≤ 0 → b.compare c ≤ 0 → a.compare c ≤ 0) ∧
    Int64Value.minValue.compare a ≤ 0 ∧ 0 ≤ Int64Value.maxValue.compare a) ∧
  Int64Value.minValue.sub .one = .maxValue ∧ Int64Value.minValue.compare .one = -1

/-- R162: `gte` is `compare(a, b) >= 0`, which is the signed order; between two non-negative values it is also the
unsigned order of the patterns. -/
def Obligations.GteIsTheSignedOrder : Prop :=
  ∀ a b : Int64Value,
    (a.gte b = true ↔ 0 ≤ a.compare b) ∧ (a.gte b = true ↔ b.sval ≤ a.sval) ∧
    (a.isNegative = false → b.isNegative = false → (a.gte b = true ↔ b.bits64.toNat ≤ a.bits64.toNat))

/-- R211 with R162: between two non-negative values the sign of the trial difference tests `r >= d` exactly, and the
difference is then exact; with a negative value it need not (R164). -/
def Obligations.TrialSubtractionTestsGte : Prop :=
  (∀ r d : Int64Value, r.isNegative = false → d.isNegative = false →
    (r.sub d).isNegative = !(r.gte d) ∧ (r.sub d).sval = r.sval - d.sval) ∧
  (Int64Value.minValue.sub .one).isNegative = false ∧ Int64Value.minValue.gte .one = false

/-- R183: the product, read as patterns, as signed values, or as the weighted sum of the partial products, is the same
value. -/
def Obligations.ProductReadingsAgree : Prop :=
  ∀ a b : Int64Value,
    a.mul b = wrap (a.bits64.toNat * b.bits64.toNat : Int) ∧ a.mul b = wrap (a.sval * b.sval) ∧
    (let p := partialProducts a.chunks b.chunks
     a.mul b = wrap ((p.p0 + p.p1 * 2 ^ 13 + p.p2 * 2 ^ 26 + p.p3 * 2 ^ 39 + p.p4 * 2 ^ 52 : Nat) : Int))

/-- R180 to R183: the chunks are the 13-bit fields of the pattern, every partial sum stays below `2^29`, and the
accumulation into the limbs gives the product. -/
def Obligations.ChunkedMultiplicationIsMul : Prop :=
  (∀ v : Int64Value,
    v.chunks.c0 = v.bits64.toNat % 2 ^ 13 ∧ v.chunks.c1 = v.bits64.toNat / 2 ^ 13 % 2 ^ 13 ∧
    v.chunks.c2 = v.bits64.toNat / 2 ^ 26 % 2 ^ 13 ∧ v.chunks.c3 = v.bits64.toNat / 2 ^ 39 % 2 ^ 13 ∧
    v.chunks.c4 = v.bits64.toNat / 2 ^ 52) ∧
  (∀ a b : Int64Value,
    (let p := partialProducts a.chunks b.chunks
     p.p0 < 2 ^ 29 ∧ p.p1 < 2 ^ 29 ∧ p.p2 < 2 ^ 29 ∧ p.p3 < 2 ^ 29 ∧ p.p4 < 2 ^ 29) ∧
    a.mulByChunks b = a.mul b)

/-- R185: the laws of `mul`. -/
def Obligations.MultiplyLaws : Prop :=
  ∀ a b c : Int64Value,
    a.mul b = b.mul a ∧ (a.mul b).mul c = a.mul (b.mul c) ∧ a.mul (b.add c) = (a.mul b).add (a.mul c) ∧
    (∀ n : Native, n.toNat ≤ 63 → a.mul (Int64Value.one.shl n) = a.shl n) ∧ a.neg.mul b = (a.mul b).neg

/-- R202: for every non-zero divisor the pair is the wrapped truncated quotient and the wrapped rest; it reconstructs the
dividend; the remainder is smaller than the divisor and zero or of the dividend's sign; only `MIN_VALUE / NEG_ONE` wraps;
the quotient's sign follows the operands' signs. -/
def Obligations.DivModPairIsTruncatedDivision : Prop :=
  ∀ a b : Int64Value, b ≠ .zero →
    ∃ q r, a.divMod b = some (q, r) ∧
      q = wrap (a.sval.tdiv b.sval) ∧ r = wrap (a.sval - a.sval.tdiv b.sval * b.sval) ∧
      (q.mul b).add r = a ∧ |r.sval| < |b.sval| ∧
      (r.sval = 0 ∨ (r.sval < 0 ↔ a.sval < 0)) ∧
      (¬(a = .minValue ∧ b = .negOne) → q.sval = a.sval.tdiv b.sval) ∧
      (a = .minValue → b = .negOne → q = .minValue ∧ r = .zero) ∧
      (a.isNegative ≠ b.isNegative → q.sval ≤ 0) ∧
      (a.isNegative = b.isNegative → ¬(a = .minValue ∧ b = .negOne) → 0 ≤ q.sval)

/-- R214: the seven-step procedure of R213 returns the pair of R202 for every dividend and every non-zero divisor (and
fails with it on a zero divisor). -/
def Obligations.LongDivisionProcedureIsDivMod : Prop := ∀ a b : Int64Value, a.divModByProcedure b = a.divMod b

/-! ## The host's actions (20_memory.md) and reset (70_reset_and_hazards.md) -/

/-- R52, R53: a write is taken in the ready state for `6..15`, the register then holds the limbs of the pattern and nothing
else changes. A write to a constant register is no action of the interface (R53); that the model refuses it by the name
`writeToConstant` is the model's choice (log entry 5). -/
def Obligations.HostWriteSetsOneRegister : Prop :=
  ∀ (s : State) (r : RegIdx) (b : Word64) (rest : List HostAction), s.pending = .write r b :: rest →
    (r.isGeneral = true → s.faulted = false →
      ∃ t, step s = .next t ∧ (t.readReg r).low = b.extractLsb' 0 22 ∧ (t.readReg r).mid = b.extractLsb' 22 22 ∧
        (t.readReg r).high = b.extractLsb' 44 20 ∧ (t.readReg r).bits64 = b ∧
        (∀ x, x ≠ r → t.readReg x = s.readReg x) ∧ t.status = s.status ∧ t.fcmd = s.fcmd ∧ t.pending = rest ∧
        t.resets = s.resets ∧ t.answer = .nothing) ∧
    (r.isGeneral = false → step s = .refused .writeToConstant)

/-- R52, R54: reading a register, or the status, is taken in every state, returns the whole pattern, or STATUS and FCMD,
and changes nothing of the block. -/
def Obligations.HostReadsChangeNothing : Prop :=
  ∀ (s : State) (rest : List HostAction),
    (∀ r, s.pending = .read r :: rest →
      step s = .next { s with pending := rest, answer := .pattern (s.readReg r).bits64 }) ∧
    (s.pending = .status :: rest →
      ∃ w, step s = .next { s with pending := rest, answer := .statusAndCommand w s.fcmd } ∧
        w.getLsbD 0 = s.faulted ∧ w.extractLsb' 1 2 = s.causeCode ∧ w.extractLsb' 3 29 = 0)

/-- R276: the acknowledgement, taken only in the fault state, clears FAULT and CAUSE and nothing else, after which commands
and writes are taken again. -/
def Obligations.AcknowledgeReturnsFromTheFault : Prop :=
  ∀ (s : State) (rest : List HostAction), s.pending = .ack :: rest →
    (s.faulted = true →
      ∃ t, step s = .next t ∧ t.faulted = false ∧ t.causeCode = 0 ∧ t.fcmd = s.fcmd ∧
        (∀ r, t.readReg r = s.readReg r) ∧ t.pending = rest ∧ t.resets = s.resets ∧ t.answer = .nothing ∧
        (∀ cw, ∃ u, performWord cw t = .next u) ∧
        (∀ r b, RegIdx.isGeneral r = true → ∃ u, hostWrite r b t = .next u)) ∧
    (s.faulted = false → ∀ t, step s ≠ .next t)

/-- R300, R301: reset is taken in every state; after it the constants stand, STATUS and FCMD are 0, and the block takes
commands and writes at once. What the general registers hold is not said: it is a free value (log entry 2). -/
def Obligations.ResetActionClearsTheControlRegisters : Prop :=
  ∀ (s : State) (rest : List HostAction), s.pending = .reset :: rest →
    ∃ t, step s = .next t ∧ t.status = 0 ∧ t.fcmd = 0 ∧ t.readReg 0 = .zero ∧ t.readReg 1 = .one ∧
      t.readReg 2 = .two ∧ t.readReg 3 = .negOne ∧ t.readReg 4 = .minValue ∧ t.readReg 5 = .maxValue ∧
      t.pending = rest ∧ t.answer = .nothing ∧
      (∀ cw, ∃ u, performWord cw t = .next u) ∧ (∀ r b, RegIdx.isGeneral r = true → ∃ u, hostWrite r b t = .next u)

/-- R36: the values the spec gives for the state after reset. The general registers are left out: their zero is the
model's choice (log entry 1). -/
def Obligations.ResetStateHoldsTheSpecifiedValues : Prop :=
  State.reset.readReg 0 = ⟨0, 0, 0⟩ ∧ State.reset.readReg 1 = ⟨0, 0, 1⟩ ∧ State.reset.readReg 2 = ⟨0, 0, 2⟩ ∧
  State.reset.readReg 3 = ⟨0xFFFFF, 0x3FFFFF, 0x3FFFFF⟩ ∧ State.reset.readReg 4 = ⟨0x80000, 0, 0⟩ ∧
  State.reset.readReg 5 = ⟨0x7FFFF, 0x3FFFFF, 0x3FFFFF⟩ ∧ State.reset.readStatus = 0 ∧ State.reset.faulted = false ∧
  State.reset.causeCode = 0 ∧ State.reset.fcmd = 0

/-! ## The whole machine -/

/-- The invariant of the block holds after reset. -/
def Obligations.InvariantHoldsAtReset : Prop := State.reset.Inv

/-- Every step keeps the invariant: STATUS holds no fault, or the fault it reports is the one FCMD and the registers
still show (R34, R35, R270, R274, R275, R277). -/
def Obligations.EveryStepKeepsTheInvariant : Prop := ∀ s t : State, s.Inv → step s = .next t → t.Inv

/-- R34: under the invariant, bits `[31:3]` of STATUS are zero, CAUSE is 0 exactly when FAULT is 0, and code 3 never
stands. -/
def Obligations.StatusFieldsAgree : Prop :=
  ∀ s : State, s.Inv →
    s.status.extractLsb' 3 29 = 0 ∧ (s.causeCode = 0 ↔ s.faulted = false) ∧ s.causeCode ≠ 3 ∧ s.readStatus = s.status

/-- R34, R35: only an issued word that is illegal or divides by zero sets FAULT, only H_ACK and H_RESET clear it, and FCMD
changes only to the word of a fault taken or by reset. -/
def Obligations.FaultStateChangesOnlyByTheseEvents : Prop :=
  ∀ s t : State, step s = .next t →
    (s.faulted = false → t.faulted = true →
      ∃ cw rest, s.pending = .issue cw :: rest ∧ t.fcmd = cw ∧ (legal cw = false ∨ s.dividesByZero cw = true)) ∧
    (s.faulted = true → t.faulted = false → ∃ rest, s.pending = .ack :: rest ∨ s.pending = .reset :: rest) ∧
    (t.fcmd ≠ s.fcmd →
      (∃ cw rest, s.pending = .issue cw :: rest ∧ t.fcmd = cw ∧ t.faulted = true) ∨
      ∃ rest, s.pending = .reset :: rest)

/-- R26, R28, R29: a value register changes only if it is a general one and the step was a reset, a write to it, or a legal
command that names it as a destination and did not fault. -/
def Obligations.RegistersChangeOnlyByTheseEvents : Prop :=
  ∀ (s t : State) (r : RegIdx), step s = .next t → t.readReg r ≠ s.readReg r →
    r.isGeneral = true ∧ ∃ a rest, s.pending = a :: rest ∧
      (a = .reset ∨ (∃ b, a = .write r b) ∨
       ∃ cw i, a = .issue cw ∧ decode cw = .ok i ∧ i.wellFormed = true ∧ r ∈ i.destinations ∧ t.faulted = false)

/-- R52, R310: a step is taken exactly when the host's next action is enabled, and takes that one action off the list;
with no action the block keeps all its state (R287). Every enabled command therefore terminates. -/
def Obligations.StepIsTakenExactlyWhenEnabled : Prop :=
  ∀ s : State,
    (s.pending = [] → step s = .next s) ∧
    (∀ a rest, s.pending = a :: rest →
      ((∃ t, step s = .next t) ↔ s.enabled a = true) ∧ (∀ t, step s = .next t → t.pending = rest))

/-- R309: a run from a ready state completes, or ends faulted at the word that FCMD holds, with the words before it having
taken effect and the faulting word and those after it having changed no value register. -/
def Obligations.RunCompletesOrStopsAtTheFault : Prop :=
  ∀ (s0 : State) (cmds : List Word64), s0.faulted = false →
    Completed cmds (run s0 cmds) ∨
    (Faulted cmds (run s0 cmds) ∧
      Completed (cmds.take (run s0 cmds).2) (run s0 (cmds.take (run s0 cmds).2)) ∧
      ∀ r, (run s0 cmds).1.readReg r = (run s0 (cmds.take (run s0 cmds).2)).1.readReg r)

/-- R309: a completed run is what the machine does when the host issues those words one step after another. -/
def Obligations.RunIsSteppingTheMachine : Prop :=
  ∀ (s0 : State) (cmds : List Word64), s0.pending = [] → s0.faulted = false → Completed cmds (run s0 cmds) →
    Host.Core.run Sys2Proof.core cmds.length ({ s0 with pending := cmds.map HostAction.issue } : State) =
      .next (run s0 cmds).1

/-! ## The software layer (45_software_layer.md) -/

/-- R254, R257: the decimal string is a sign, only for a negative value, and digits with no leading zero, and it denotes
the signed value; so a parser that reads the numeral gets the value back. -/
def Obligations.DecimalStringDenotesTheValue : Prop :=
  ∀ v : Int64Value,
    decimalValue (toDecimalString v) = v.sval ∧ wrap (decimalValue (toDecimalString v)) = v ∧
    ∃ digits, toDecimalString v = (if v.isNegative then ['-'] else []) ++ digits ∧ digits ≠ [] ∧
      (∀ c ∈ digits, '0' ≤ c ∧ c ≤ '9') ∧ (digits.head? = some '0' → digits = ['0'])

/-- R250 over `Double.toValue`: NaN gives `ZERO`, a double below `-2^63` saturates to `MIN_VALUE`, one at or above `2^63` to
`MAX_VALUE`, and any other is truncated toward zero. That the infinities saturate is the reading R251 marks as its own
(log entry 9). `fromDouble` is `Double.toValue` of the double a pattern stands for; that reading of the pattern
(`doubleOfPattern`, log entry 9) is not spoken of here. -/
def Obligations.FromDoubleTruncatesOrSaturates : Prop :=
  Double.nan.toValue = .zero ∧ (Double.infinity true).toValue = .minValue ∧ (Double.infinity false).toValue = .maxValue ∧
  ∀ (negative : Bool) (m : Nat) (e : Int),
    (finiteDoubleValue negative m e < -2 ^ 63 → (Double.finite negative m e).toValue = .minValue) ∧
    (2 ^ 63 ≤ finiteDoubleValue negative m e → (Double.finite negative m e).toValue = .maxValue) ∧
    (-2 ^ 63 ≤ finiteDoubleValue negative m e → finiteDoubleValue negative m e < 2 ^ 63 →
      (Double.finite negative m e).toValue =
        wrap (if 0 ≤ finiteDoubleValue negative m e then ⌊finiteDoubleValue negative m e⌋
              else ⌈finiteDoubleValue negative m e⌉))

/-- R253: a value of magnitude up to `2^53` converts to a double exactly (the format is G1, log entry 9). -/
def Obligations.ToDoubleIsExactUpTo53Bits : Prop :=
  ∀ v : Int64Value, |v.sval| ≤ 2 ^ 53 →
    ∃ negative m e, doubleOfPattern (toDouble v) = .finite negative m e ∧ finiteDoubleValue negative m e = v.sval
end

