-- ==== Sys2Proof/Laws/Compare.lean ====
section
/-! SUPPORT. The helper `gte` in terms of `compare` (42_add_sub_neg_compare.md rules R161, R162). -/

namespace Sys2Proof

/-- `gte` holds exactly when the comparison is not negative (R162). -/
@[simp] theorem Int64Value.gte_eq_true (a b : Int64Value) : a.gte b = true ↔ 0 ≤ a.compare b := decide_eq_true_iff

/-- `gte` fails exactly when the comparison is negative (R162). -/
@[simp] theorem Int64Value.gte_eq_false (a b : Int64Value) : a.gte b = false ↔ a.compare b < 0 :=
  decide_eq_false_iff_not.trans Int.not_le

/-- A value compares equal to itself (R161). -/
@[simp] theorem Int64Value.compare_self (a : Int64Value) : a.compare a = 0 := by
  simp [Int64Value.compare, Int64Value.equal]

end Sys2Proof
end

