-- ==== Sys2Proof/Laws/Decode.lean ====
section
/-! SUPPORT. Fields and words are inverse to each other; the opcode map is read back from its numbers. -/

namespace Sys2Proof

/-- A register number is read back from its field. -/
@[simp] theorem regOf_regField (r : RegIdx) : regOf (regField r) = r := by
  revert r; decide

/-- A register field is written back from its number. -/
@[simp] theorem regField_regOf (b : BitVec 4) : regField (regOf b) = b := by
  simp [regField, regOf]

/-- The fields of a word made of fields. -/
@[simp] theorem fieldsOf_wordOf (f : Fields) : fieldsOf (wordOf f) = f := by
  obtain ⟨op, rd, rr, ra, rb, z, wr, imm⟩ := f
  simp only [fieldsOf, wordOf, Fields.mk.injEq]
  refine ⟨?_, ?_, ?_, ?_, ?_, ?_, ?_, ?_⟩ <;> ext i hi <;>
    simp only [BitVec.getElem_extractLsb', BitVec.getLsbD_append] <;>
    simp (disch := omega) only [if_neg, if_pos, BitVec.getLsbD_eq_getElem] <;> congr 1 <;> omega

/-- The word made of a word's fields. -/
@[simp] theorem wordOf_fieldsOf (cw : Word64) : wordOf (fieldsOf cw) = cw := by
  simp only [fieldsOf, wordOf]
  ext i hi
  simp only [BitVec.getElem_append, BitVec.getElem_extractLsb']
  repeat' split
  all_goals rw [← BitVec.getLsbD_eq_getElem hi]; congr 1; omega

/-- An opcode is read back from its number (R80). -/
@[simp] theorem opcodeOf_code (o : Opcode) : opcodeOf o.code = some o := by
  cases o <;> decide

/-- A number that is read as an opcode is its number (R80). -/
theorem code_of_opcodeOf {b : BitVec 8} {o : Opcode} (h : opcodeOf b = some o) : o.code = b := by
  simpa using List.find?_some h

/-- The fields of a command's word. -/
@[simp] theorem fieldsOf_encode (i : Instr) : fieldsOf (encode i) = i.fields := fieldsOf_wordOf _

end Sys2Proof
end

