-- ==== Sys2Proof/Laws/State.lean ====
section
/-! SUPPORT. One lemma per field per update, and reading a register after each update. -/

namespace Sys2Proof.Machine

/-! ## writeReg -/

@[simp] theorem State.writeReg_status (s : State) (r : RegIdx) (v : Int64Value) : (s.writeReg r v).status = s.status := by
  unfold State.writeReg; split <;> rfl

@[simp] theorem State.writeReg_fcmd (s : State) (r : RegIdx) (v : Int64Value) : (s.writeReg r v).fcmd = s.fcmd := by
  unfold State.writeReg; split <;> rfl

@[simp] theorem State.writeReg_pending (s : State) (r : RegIdx) (v : Int64Value) :
    (s.writeReg r v).pending = s.pending := by
  unfold State.writeReg; split <;> rfl

@[simp] theorem State.writeReg_answer (s : State) (r : RegIdx) (v : Int64Value) : (s.writeReg r v).answer = s.answer := by
  unfold State.writeReg; split <;> rfl

@[simp] theorem State.writeReg_resets (s : State) (r : RegIdx) (v : Int64Value) : (s.writeReg r v).resets = s.resets := by
  unfold State.writeReg; split <;> rfl

/-! ## readReg -/

/-- A general register is its entry of the register file. -/
theorem State.readReg_general (s : State) (k : Nat) (h : k + 6 < 16) : s.readReg ⟨k + 6, h⟩ = s.gprs.getD k .zero := rfl

/-- `readReg` depends on the register file alone. -/
theorem State.readReg_congr {s t : State} (h : s.gprs = t.gprs) (r : RegIdx) : s.readReg r = t.readReg r := by
  unfold State.readReg; rw [h]

/-- A general register reads as what was written to it. -/
theorem State.readReg_writeReg_same (s : State) (r : RegIdx) (v : Int64Value) (h : r.isGeneral = true) :
    (s.writeReg r v).readReg r = v := by
  obtain ⟨n, hn⟩ := r
  simp only [RegIdx.isGeneral, decide_eq_true_eq] at h
  obtain ⟨k, rfl⟩ : ∃ k, n = k + 6 := ⟨n - 6, by omega⟩
  have hk : k < 10 := by omega
  simp [State.writeReg, State.readReg, Vector.getD, hk]

/-- Writing one register changes no other (R26). -/
theorem State.readReg_writeReg_other (s : State) (r r' : RegIdx) (v : Int64Value) (h : r' ≠ r) :
    (s.writeReg r v).readReg r' = s.readReg r' := by
  unfold State.writeReg
  split
  · rename_i hr
    obtain ⟨n, hn⟩ := r'
    unfold State.readReg
    dsimp only
    split <;> try rfl
    rename_i k
    have hne : r.val - 6 ≠ k := fun e => h (Fin.ext (by simp only at hr ⊢; omega))
    have hk : k < 10 := by omega
    simp [Vector.getD, hk, hne]
  · rfl

/-! ## Updates that do not touch the register file -/

@[simp] theorem State.readReg_status_update (s : State) (x : BitVec 32) (r : RegIdx) :
    ({ s with status := x } : State).readReg r = s.readReg r := rfl

@[simp] theorem State.readReg_pending_update (s : State) (x : List HostAction) (r : RegIdx) :
    ({ s with pending := x } : State).readReg r = s.readReg r := rfl

@[simp] theorem State.readReg_answer_update (s : State) (x : Answer) (r : RegIdx) :
    ({ s with answer := x } : State).readReg r = s.readReg r := rfl

/-! ## faultEntry -/

@[simp] theorem State.faultEntry_status (s : State) (c : Cause) (w : Word64) :
    (s.faultEntry c w).status = statusWord true c := rfl
@[simp] theorem State.faultEntry_fcmd (s : State) (c : Cause) (w : Word64) : (s.faultEntry c w).fcmd = w := rfl
@[simp] theorem State.faultEntry_gprs (s : State) (c : Cause) (w : Word64) : (s.faultEntry c w).gprs = s.gprs := rfl
@[simp] theorem State.faultEntry_pending (s : State) (c : Cause) (w : Word64) : (s.faultEntry c w).pending = s.pending := rfl
@[simp] theorem State.faultEntry_answer (s : State) (c : Cause) (w : Word64) : (s.faultEntry c w).answer = .faultLevel := rfl
@[simp] theorem State.faultEntry_resets (s : State) (c : Cause) (w : Word64) : (s.faultEntry c w).resets = s.resets := rfl
@[simp] theorem State.faultEntry_readReg (s : State) (c : Cause) (w : Word64) (r : RegIdx) :
    (s.faultEntry c w).readReg r = s.readReg r := rfl

/-! ## acknowledge -/

@[simp] theorem State.acknowledge_status (s : State) : s.acknowledge.status = statusWord false .none := rfl
@[simp] theorem State.acknowledge_fcmd (s : State) : s.acknowledge.fcmd = s.fcmd := rfl
@[simp] theorem State.acknowledge_gprs (s : State) : s.acknowledge.gprs = s.gprs := rfl
@[simp] theorem State.acknowledge_pending (s : State) : s.acknowledge.pending = s.pending := rfl
@[simp] theorem State.acknowledge_answer (s : State) : s.acknowledge.answer = .nothing := rfl
@[simp] theorem State.acknowledge_resets (s : State) : s.acknowledge.resets = s.resets := rfl
@[simp] theorem State.acknowledge_readReg (s : State) (r : RegIdx) : s.acknowledge.readReg r = s.readReg r := rfl

/-! ## hostReset -/

@[simp] theorem State.hostReset_status (s : State) : s.hostReset.status = 0 := rfl
@[simp] theorem State.hostReset_fcmd (s : State) : s.hostReset.fcmd = 0 := rfl
@[simp] theorem State.hostReset_pending (s : State) : s.hostReset.pending = s.pending := rfl
@[simp] theorem State.hostReset_answer (s : State) : s.hostReset.answer = .nothing := rfl
@[simp] theorem State.hostReset_resets (s : State) : s.hostReset.resets = s.resets + 1 := rfl

/-! ## complete and completePair -/

@[simp] theorem State.complete_status (s : State) (rd : RegIdx) (v : Int64Value) : (s.complete rd v).status = s.status := by
  simp [State.complete]
@[simp] theorem State.complete_fcmd (s : State) (rd : RegIdx) (v : Int64Value) : (s.complete rd v).fcmd = s.fcmd := by
  simp [State.complete]
@[simp] theorem State.complete_pending (s : State) (rd : RegIdx) (v : Int64Value) :
    (s.complete rd v).pending = s.pending := by simp [State.complete]
@[simp] theorem State.complete_answer (s : State) (rd : RegIdx) (v : Int64Value) : (s.complete rd v).answer = .done := rfl
@[simp] theorem State.complete_resets (s : State) (rd : RegIdx) (v : Int64Value) : (s.complete rd v).resets = s.resets := by
  simp [State.complete]
theorem State.complete_readReg (s : State) (rd : RegIdx) (v : Int64Value) (r : RegIdx) :
    (s.complete rd v).readReg r = (s.writeReg rd v).readReg r := rfl

@[simp] theorem State.completePair_status (s : State) (rd rr : RegIdx) (q r : Int64Value) :
    (s.completePair rd rr q r).status = s.status := by simp [State.completePair]
@[simp] theorem State.completePair_fcmd (s : State) (rd rr : RegIdx) (q r : Int64Value) :
    (s.completePair rd rr q r).fcmd = s.fcmd := by simp [State.completePair]
@[simp] theorem State.completePair_pending (s : State) (rd rr : RegIdx) (q r : Int64Value) :
    (s.completePair rd rr q r).pending = s.pending := by simp [State.completePair]
@[simp] theorem State.completePair_answer (s : State) (rd rr : RegIdx) (q r : Int64Value) :
    (s.completePair rd rr q r).answer = .done := rfl
@[simp] theorem State.completePair_resets (s : State) (rd rr : RegIdx) (q r : Int64Value) :
    (s.completePair rd rr q r).resets = s.resets := by simp [State.completePair]
theorem State.completePair_readReg (s : State) (rd rr : RegIdx) (q v : Int64Value) (r : RegIdx) :
    (s.completePair rd rr q v).readReg r = ((s.writeReg rd q).writeReg rr v).readReg r := rfl

/-! ## STATUS -/

/-- The level of `FAULT` in a word made of fields. -/
@[simp] theorem statusWord_fault (f : Bool) (c : Cause) : (statusWord f c).getLsbD 0 = f := by
  cases f <;> cases c <;> rfl

/-- The cause in a word made of fields. -/
@[simp] theorem statusWord_cause (f : Bool) (c : Cause) : (statusWord f c).extractLsb' 1 2 = c.code := by
  cases f <;> cases c <;> rfl

/-- A word made of fields has nothing in bits `[31:3]`: it reads as it stands. -/
@[simp] theorem statusWord_readable (f : Bool) (c : Cause) :
    (0 : BitVec 29) ++ (statusWord f c).extractLsb' 0 3 = statusWord f c := by
  cases f <;> cases c <;> rfl

/-- The host's reads change only the answer. -/
@[simp] theorem hostRead_readReg (r r' : RegIdx) (s : State) : (hostRead r s).readReg r' = s.readReg r' := rfl
@[simp] theorem hostStatus_readReg (r : RegIdx) (s : State) : (hostStatus s).readReg r = s.readReg r := rfl

end Sys2Proof.Machine
end

