-- ==== Sys2Proof/Laws/Ops.lean ====
section
/-! SUPPORT. What each shared operation can do, said once: a spec lemma where it answers, an inversion lemma for its
next states. -/

namespace Sys2Proof.Machine

/-- A ready block takes the step. -/
theorem State.whenReady_ready (s : State) (o : Host.Outcome State Fault Refusal) (h : s.faulted = false) :
    s.whenReady o = o := by simp [State.whenReady, h]

/-- A faulted block takes no command. -/
theorem State.whenReady_faulted (s : State) (o : Host.Outcome State Fault Refusal) (h : s.faulted = true) :
    s.whenReady o = .fault .issueNotEnabled := by simp [State.whenReady, h]

/-- A legal command in a ready block has its effect. -/
theorem performCommand_wellFormed (i : Instr) (f : State → State) (s : State) (hr : s.faulted = false)
    (hw : i.wellFormed = true) : performCommand i f s = .next (f s) := by
  simp [performCommand, State.whenReady, hr, hw]

/-- A command with an illegal destination in a ready block raises IllegalCommand. -/
theorem performCommand_illFormed (i : Instr) (f : State → State) (s : State) (hr : s.faulted = false)
    (hw : i.wellFormed = false) : performCommand i f s = .next (s.faultEntry .illegalCommand (encode i)) := by
  simp [performCommand, State.whenReady, hr, hw]

/-- No command is performed in the fault state. -/
theorem performCommand_faulted (i : Instr) (f : State → State) (s : State) (hr : s.faulted = true) :
    performCommand i f s = .fault .issueNotEnabled := by
  simp [performCommand, State.whenReady, hr]

/-- Everything `performCommand` can do when it answers a next state. -/
theorem performCommand_next {i : Instr} {f : State → State} {s t : State} (h : performCommand i f s = .next t) :
    s.faulted = false ∧
      ((i.wellFormed = true ∧ t = f s) ∨ (i.wellFormed = false ∧ t = s.faultEntry .illegalCommand (encode i))) := by
  unfold performCommand State.whenReady at h
  split at h
  · cases h
  · rename_i hf
    refine ⟨by simpa using hf, ?_⟩
    split at h
    · rename_i hw
      cases h
      exact .inl ⟨hw, rfl⟩
    · rename_i hw
      cases h
      exact .inr ⟨by simpa using hw, rfl⟩

/-- Everything `performIllegal` can do when it answers a next state. -/
theorem performIllegal_next {cw : Word64} {s t : State} (h : performIllegal cw s = .next t) :
    s.faulted = false ∧ t = s.faultEntry .illegalCommand cw := by
  unfold performIllegal State.whenReady at h
  split at h
  · cases h
  · rename_i hf
    cases h
    exact ⟨by simpa using hf, rfl⟩

/-- A word that decodes is performed as its command. -/
theorem performWord_ok {cw : Word64} {i : Instr} (h : decode cw = .ok i) (s : State) : performWord cw s = exec i s := by
  simp [performWord, h]

/-- A word that does not decode raises IllegalCommand. -/
theorem performWord_error {cw : Word64} {e : DecodeError} (h : decode cw = .error e) (s : State) :
    performWord cw s = performIllegal cw s := by
  simp [performWord, h]

/-- A command that writes one register leaves everything else as it was. -/
theorem State.complete_wroteOnly (s : State) (rd : RegIdx) (v : Int64Value) (h : rd.isGeneral = true) :
    WroteOnly s (s.complete rd v) rd v :=
  ⟨by rw [State.complete_readReg, State.readReg_writeReg_same s rd v h],
    fun r hr => by rw [State.complete_readReg, State.readReg_writeReg_other s rd r v hr],
    by simp, by simp, by simp, by simp, by simp⟩

/-- A command that writes a pair leaves everything else as it was. -/
theorem State.completePair_wroteBoth (s : State) (rd rr : RegIdx) (q r : Int64Value) (hd : rd.isGeneral = true)
    (hr : rr.isGeneral = true) (hne : rd ≠ rr) : WroteBoth s (s.completePair rd rr q r) rd rr q r :=
  ⟨by rw [State.completePair_readReg, State.readReg_writeReg_other _ rr rd r hne, State.readReg_writeReg_same s rd q hd],
    by rw [State.completePair_readReg, State.readReg_writeReg_same _ rr r hr],
    fun x h1 h2 => by
      rw [State.completePair_readReg, State.readReg_writeReg_other _ rr x r h2, State.readReg_writeReg_other s rd x q h1],
    by simp, by simp, by simp, by simp, by simp⟩

/-- Fault entry is `TookFault`. -/
theorem State.faultEntry_tookFault (s : State) (c : Cause) (cw : Word64) : TookFault s (s.faultEntry c cw) c cw :=
  ⟨fun _ => rfl, by simp [State.faulted], by simp [State.causeCode], rfl, by rw [State.readStatus, State.faultEntry_status, statusWord_readable], rfl, rfl, rfl⟩

/-- Everything the host's write can do when it answers a next state. -/
theorem hostWrite_next {r : RegIdx} {b : Word64} {s t : State} (h : hostWrite r b s = .next t) :
    r.isGeneral = true ∧ s.faulted = false ∧ t = { s.writeReg r (limbs b) with answer := .nothing } := by
  unfold hostWrite at h
  split at h
  · rename_i hg
    split at h
    · cases h
    · rename_i hf
      cases h
      exact ⟨hg, by simpa using hf, rfl⟩
  · cases h

/-- Everything the acknowledgement can do when it answers a next state. -/
theorem hostAck_next {s t : State} (h : hostAck s = .next t) : s.faulted = true ∧ t = s.acknowledge := by
  unfold hostAck at h
  split at h
  · rename_i hf
    cases h
    exact ⟨hf, rfl⟩
  · cases h

/-- A step with no pending action changes nothing. -/
theorem step_idle {s : State} (h : s.pending = []) : step s = .next s := by
  simp [step, stepAction, h]

/-- A step with a pending action takes it off the list and performs it. -/
theorem step_action {s : State} {a : HostAction} {rest : List HostAction} (h : s.pending = a :: rest) :
    step s = hostAction a { s with pending := rest } := by
  simp [step, stepAction, h]

end Sys2Proof.Machine
end

