-- ==== Sys2Proof/Laws/Exec.lean ====
section
/-! SUPPORT. Each command as `performCommand` of its own effect, and what a command can do, said once for all of them. -/

namespace Sys2Proof.Machine

theorem exec_fromInt32 (rd : RegIdx) (imm : Native) (s : State) :
    exec (.fromInt32 rd imm) s = performCommand (.fromInt32 rd imm) (fun s => s.complete rd (fromInt32 imm)) s := rfl

theorem exec_toInt32 (rd ra : RegIdx) (s : State) :
    exec (.toInt32 rd ra) s =
      performCommand (.toInt32 rd ra) (fun s => s.complete rd (fromInt32 (toInt32 (s.readReg ra)))) s := rfl

theorem exec_add (rd ra rb : RegIdx) (s : State) :
    exec (.add rd ra rb) s =
      performCommand (.add rd ra rb) (fun s => s.complete rd ((s.readReg ra).add (s.readReg rb))) s := rfl

theorem exec_sub (rd ra rb : RegIdx) (s : State) :
    exec (.sub rd ra rb) s =
      performCommand (.sub rd ra rb) (fun s => s.complete rd ((s.readReg ra).sub (s.readReg rb))) s := rfl

theorem exec_neg (rd ra : RegIdx) (s : State) :
    exec (.neg rd ra) s = performCommand (.neg rd ra) (fun s => s.complete rd (s.readReg ra).neg) s := rfl

theorem exec_mul (rd ra rb : RegIdx) (s : State) :
    exec (.mul rd ra rb) s =
      performCommand (.mul rd ra rb) (fun s => s.complete rd ((s.readReg ra).mul (s.readReg rb))) s := rfl

theorem exec_shl (rd ra : RegIdx) (n : Native) (s : State) :
    exec (.shl rd ra n) s = performCommand (.shl rd ra n) (fun s => s.complete rd ((s.readReg ra).shl n)) s := rfl

theorem exec_shr (rd ra : RegIdx) (n : Native) (s : State) :
    exec (.shr rd ra n) s = performCommand (.shr rd ra n) (fun s => s.complete rd ((s.readReg ra).shr n)) s := rfl

theorem exec_shru (rd ra : RegIdx) (n : Native) (s : State) :
    exec (.shru rd ra n) s = performCommand (.shru rd ra n) (fun s => s.complete rd ((s.readReg ra).shru n)) s := rfl

theorem exec_and (rd ra rb : RegIdx) (s : State) :
    exec (.and rd ra rb) s =
      performCommand (.and rd ra rb) (fun s => s.complete rd ((s.readReg ra).and (s.readReg rb))) s := rfl

theorem exec_or (rd ra rb : RegIdx) (s : State) :
    exec (.or rd ra rb) s =
      performCommand (.or rd ra rb) (fun s => s.complete rd ((s.readReg ra).or (s.readReg rb))) s := rfl

theorem exec_xor (rd ra rb : RegIdx) (s : State) :
    exec (.xor rd ra rb) s =
      performCommand (.xor rd ra rb) (fun s => s.complete rd ((s.readReg ra).xor (s.readReg rb))) s := rfl

theorem exec_not (rd ra : RegIdx) (s : State) :
    exec (.not rd ra) s = performCommand (.not rd ra) (fun s => s.complete rd (s.readReg ra).not) s := rfl

theorem exec_compare (rd ra rb : RegIdx) (s : State) :
    exec (.compare rd ra rb) s =
      performCommand (.compare rd ra rb)
        (fun s => s.complete rd (fromInt32 (BitVec.ofInt 32 ((s.readReg ra).compare (s.readReg rb))))) s := rfl

/-- The effect of a legal `divMod` with `wr = 0`. -/
def divModQuotientEffect (rd ra rb : RegIdx) (s : State) : State :=
  if (s.readReg rb).isZero then s.faultEntry .divideByZero (encode (.divModQuotient rd ra rb))
  else s.complete rd ((s.readReg ra).quotient (s.readReg rb))

/-- The effect of a legal `divMod` with `wr = 1`. -/
def divModPairEffect (rd rr ra rb : RegIdx) (s : State) : State :=
  if (s.readReg rb).isZero then s.faultEntry .divideByZero (encode (.divModPair rd rr ra rb))
  else s.completePair rd rr ((s.readReg ra).quotient (s.readReg rb)) ((s.readReg ra).remainder (s.readReg rb))

theorem exec_divModQuotient (rd ra rb : RegIdx) (s : State) :
    exec (.divModQuotient rd ra rb) s =
      performCommand (.divModQuotient rd ra rb) (divModQuotientEffect rd ra rb) s := by
  simp only [exec, execDivModQuotient]
  congr 1
  funext s
  unfold divModQuotientEffect Int64Value.divMod
  split <;> rename_i h <;> split at h <;> cases h <;> simp_all

theorem exec_divModPair (rd rr ra rb : RegIdx) (s : State) :
    exec (.divModPair rd rr ra rb) s =
      performCommand (.divModPair rd rr ra rb) (divModPairEffect rd rr ra rb) s := by
  simp only [exec, execDivModPair]
  congr 1
  funext s
  unfold divModPairEffect Int64Value.divMod
  split <;> rename_i h <;> split at h <;> cases h <;> simp_all

/-- What a legal command can make of a ready state: a DivideByZero entry, one result, or a pair. -/
inductive CommandEffect (i : Instr) (s : State) : State → Prop where
  | divideByZero (rb : RegIdx) (divides : i.divisor = some rb) (zero : (s.readReg rb).isZero = true) :
      CommandEffect i s (s.faultEntry .divideByZero (encode i))
  | one (rd : RegIdx) (v : Int64Value) (dest : i.destinations = [rd])
      (nonzero : ∀ rb, i.divisor = some rb → (s.readReg rb).isZero = false) : CommandEffect i s (s.complete rd v)
  | pair (rd rr : RegIdx) (q r : Int64Value) (dests : i.destinations = [rd, rr])
      (nonzero : ∀ rb, i.divisor = some rb → (s.readReg rb).isZero = false) :
      CommandEffect i s (s.completePair rd rr q r)

theorem divModQuotientEffect_cases (rd ra rb : RegIdx) (s : State) :
    CommandEffect (.divModQuotient rd ra rb) s (divModQuotientEffect rd ra rb s) := by
  unfold divModQuotientEffect
  split
  · rename_i h; exact .divideByZero rb rfl h
  · rename_i h; exact .one rd _ rfl (by simpa [Instr.divisor] using h)

theorem divModPairEffect_cases (rd rr ra rb : RegIdx) (s : State) :
    CommandEffect (.divModPair rd rr ra rb) s (divModPairEffect rd rr ra rb s) := by
  unfold divModPairEffect
  split
  · rename_i h; exact .divideByZero rb rfl h
  · rename_i h; exact .pair rd rr _ _ rfl (by simpa [Instr.divisor] using h)

/-- Every command is `performCommand` of an effect of one of these three shapes. -/
theorem exec_shape (i : Instr) : ∃ f, (∀ s, exec i s = performCommand i f s) ∧ ∀ s, CommandEffect i s (f s) := by
  cases i with
  | fromInt32 rd imm => exact ⟨_, exec_fromInt32 rd imm, fun _ => .one rd _ rfl (by simp [Instr.divisor])⟩
  | toInt32 rd ra => exact ⟨_, exec_toInt32 rd ra, fun _ => .one rd _ rfl (by simp [Instr.divisor])⟩
  | add rd ra rb => exact ⟨_, exec_add rd ra rb, fun _ => .one rd _ rfl (by simp [Instr.divisor])⟩
  | sub rd ra rb => exact ⟨_, exec_sub rd ra rb, fun _ => .one rd _ rfl (by simp [Instr.divisor])⟩
  | neg rd ra => exact ⟨_, exec_neg rd ra, fun _ => .one rd _ rfl (by simp [Instr.divisor])⟩
  | mul rd ra rb => exact ⟨_, exec_mul rd ra rb, fun _ => .one rd _ rfl (by simp [Instr.divisor])⟩
  | divModQuotient rd ra rb => exact ⟨_, exec_divModQuotient rd ra rb, divModQuotientEffect_cases rd ra rb⟩
  | divModPair rd rr ra rb => exact ⟨_, exec_divModPair rd rr ra rb, divModPairEffect_cases rd rr ra rb⟩
  | shl rd ra n => exact ⟨_, exec_shl rd ra n, fun _ => .one rd _ rfl (by simp [Instr.divisor])⟩
  | shr rd ra n => exact ⟨_, exec_shr rd ra n, fun _ => .one rd _ rfl (by simp [Instr.divisor])⟩
  | shru rd ra n => exact ⟨_, exec_shru rd ra n, fun _ => .one rd _ rfl (by simp [Instr.divisor])⟩
  | and rd ra rb => exact ⟨_, exec_and rd ra rb, fun _ => .one rd _ rfl (by simp [Instr.divisor])⟩
  | or rd ra rb => exact ⟨_, exec_or rd ra rb, fun _ => .one rd _ rfl (by simp [Instr.divisor])⟩
  | xor rd ra rb => exact ⟨_, exec_xor rd ra rb, fun _ => .one rd _ rfl (by simp [Instr.divisor])⟩
  | not rd ra => exact ⟨_, exec_not rd ra, fun _ => .one rd _ rfl (by simp [Instr.divisor])⟩
  | compare rd ra rb => exact ⟨_, exec_compare rd ra rb, fun _ => .one rd _ rfl (by simp [Instr.divisor])⟩

/-- Everything a command can do when it answers a next state. -/
theorem exec_next {i : Instr} {s t : State} (h : exec i s = .next t) :
    s.faulted = false ∧
      ((i.wellFormed = true ∧ CommandEffect i s t) ∨
       (i.wellFormed = false ∧ t = s.faultEntry .illegalCommand (encode i))) := by
  obtain ⟨f, hf, he⟩ := exec_shape i
  rw [hf] at h
  obtain ⟨hr, ⟨hw, rfl⟩ | hw⟩ := performCommand_next h
  · exact ⟨hr, .inl ⟨hw, he s⟩⟩
  · exact ⟨hr, .inr hw⟩

/-- A command in a ready block always answers a next state. -/
theorem exec_ready (i : Instr) (s : State) (h : s.faulted = false) : ∃ t, exec i s = .next t := by
  obtain ⟨f, hf, -⟩ := exec_shape i
  rw [hf]
  cases hw : i.wellFormed with
  | true => exact ⟨_, performCommand_wellFormed i f s h hw⟩
  | false => exact ⟨_, performCommand_illFormed i f s h hw⟩

end Sys2Proof.Machine
end

