-- ==== Sys2Proof/Laws/PerInstr.lean ====
section
/-! SUPPORT. A family of statements made per command: its word passes checks 1 and 2 of 30_encoding.md rule R90. -/

namespace Sys2Proof.Laws.EncodesToCommand

/-- The word of the command has a command opcode and every field the format does not use is zero (R90 checks 1, 2). -/
def Statement (i : Instr) : Prop :=
  ∃ o, opcodeOf (fieldsOf (encode i)).op = some o ∧ o.format.unusedZero (fieldsOf (encode i)) = true

theorem fromInt32 (rd : RegIdx) (imm : Native) : Statement (.fromInt32 rd imm) :=
  ⟨.fromInt32, by simp [Instr.fields], by simp [Instr.fields, Opcode.format, Format.unusedZero]⟩
theorem toInt32 (rd ra : RegIdx) : Statement (.toInt32 rd ra) :=
  ⟨.toInt32, by simp [Instr.fields], by simp [Instr.fields, Opcode.format, Format.unusedZero]⟩
theorem add (rd ra rb : RegIdx) : Statement (.add rd ra rb) :=
  ⟨.add, by simp [Instr.fields], by simp [Instr.fields, Opcode.format, Format.unusedZero]⟩
theorem sub (rd ra rb : RegIdx) : Statement (.sub rd ra rb) :=
  ⟨.sub, by simp [Instr.fields], by simp [Instr.fields, Opcode.format, Format.unusedZero]⟩
theorem neg (rd ra : RegIdx) : Statement (.neg rd ra) :=
  ⟨.neg, by simp [Instr.fields], by simp [Instr.fields, Opcode.format, Format.unusedZero]⟩
theorem mul (rd ra rb : RegIdx) : Statement (.mul rd ra rb) :=
  ⟨.mul, by simp [Instr.fields], by simp [Instr.fields, Opcode.format, Format.unusedZero]⟩
theorem divModQuotient (rd ra rb : RegIdx) : Statement (.divModQuotient rd ra rb) :=
  ⟨.divMod, by simp [Instr.fields], by simp [Instr.fields, Opcode.format, Format.unusedZero]⟩
theorem divModPair (rd rr ra rb : RegIdx) : Statement (.divModPair rd rr ra rb) :=
  ⟨.divMod, by simp [Instr.fields], by simp [Instr.fields, Opcode.format, Format.unusedZero]⟩
theorem shl (rd ra : RegIdx) (n : Native) : Statement (.shl rd ra n) :=
  ⟨.shl, by simp [Instr.fields], by simp [Instr.fields, Opcode.format, Format.unusedZero]⟩
theorem shr (rd ra : RegIdx) (n : Native) : Statement (.shr rd ra n) :=
  ⟨.shr, by simp [Instr.fields], by simp [Instr.fields, Opcode.format, Format.unusedZero]⟩
theorem shru (rd ra : RegIdx) (n : Native) : Statement (.shru rd ra n) :=
  ⟨.shru, by simp [Instr.fields], by simp [Instr.fields, Opcode.format, Format.unusedZero]⟩
theorem and (rd ra rb : RegIdx) : Statement (.and rd ra rb) :=
  ⟨.and, by simp [Instr.fields], by simp [Instr.fields, Opcode.format, Format.unusedZero]⟩
theorem or (rd ra rb : RegIdx) : Statement (.or rd ra rb) :=
  ⟨.or, by simp [Instr.fields], by simp [Instr.fields, Opcode.format, Format.unusedZero]⟩
theorem xor (rd ra rb : RegIdx) : Statement (.xor rd ra rb) :=
  ⟨.xor, by simp [Instr.fields], by simp [Instr.fields, Opcode.format, Format.unusedZero]⟩
theorem not (rd ra : RegIdx) : Statement (.not rd ra) :=
  ⟨.not, by simp [Instr.fields], by simp [Instr.fields, Opcode.format, Format.unusedZero]⟩
theorem compare (rd ra rb : RegIdx) : Statement (.compare rd ra rb) :=
  ⟨.compare, by simp [Instr.fields], by simp [Instr.fields, Opcode.format, Format.unusedZero]⟩

end Sys2Proof.Laws.EncodesToCommand
end

