-- ==== Sys2Proof/Laws/Values.lean ====
section
/-! SUPPORT. The views of a value are inverse to each other, and the pattern as a number (00_scope.md rule R9). -/

namespace Sys2Proof

/-- The pattern as a number, by its limbs (R9). -/
theorem Int64Value.bits64_toNat (v : Int64Value) :
    v.bits64.toNat = v.low.toNat + v.mid.toNat * 2 ^ 22 + v.high.toNat * 2 ^ 44 := by
  have h1 := v.low.isLt
  have h2 := v.mid.isLt
  unfold Int64Value.bits64
  rw [BitVec.toNat_append, BitVec.toNat_append, ← Nat.shiftLeft_add_eq_or_of_lt h1,
    ← Nat.shiftLeft_add_eq_or_of_lt h2, Nat.shiftLeft_eq, Nat.shiftLeft_eq]
  ring

/-- A value's limbs from its pattern (R9). -/
@[simp] theorem limbs_bits64 (v : Int64Value) : limbs v.bits64 = v := by
  obtain ⟨h, m, l⟩ := v
  simp only [limbs, Int64Value.bits64, Int64Value.mk.injEq]
  refine ⟨?_, ?_, ?_⟩ <;> ext i hi <;>
    simp only [BitVec.getElem_extractLsb', BitVec.getLsbD_append] <;>
    simp (disch := omega) only [if_neg, if_pos, BitVec.getLsbD_eq_getElem] <;> congr 1 <;> omega

/-- A pattern from its limbs (R9). -/
@[simp] theorem bits64_limbs (b : Word64) : (limbs b).bits64 = b := by
  simp only [limbs, Int64Value.bits64]
  ext i hi
  simp only [BitVec.getElem_append, BitVec.getElem_extractLsb']
  split
  · simp [BitVec.getLsbD_eq_getElem hi]
  · split
    · have : 22 + (i - 22) = i := by omega
      simp [this, BitVec.getLsbD_eq_getElem hi]
    · have : 44 + (i - 22 - 22) = i := by omega
      simp [this, BitVec.getLsbD_eq_getElem hi]

/-- Two values with one pattern are equal (R9). -/
theorem Int64Value.ext_bits64 {a b : Int64Value} (h : a.bits64 = b.bits64) : a = b := by
  rw [← limbs_bits64 a, h, limbs_bits64]

/-- The pattern of a wrapped integer (R9). -/
@[simp] theorem bits64_wrap (n : Int) : (wrap n).bits64 = BitVec.ofInt 64 n := bits64_limbs _

end Sys2Proof
end

