-- ==== Sys2Proof/Tests/Slice0.lean ====
section
/-! SUPPORT. Tests of the model on words and values written out in spec/ (30_encoding.md R98, 95_test_vectors.md), and a
witness for the hypotheses of every statement. -/

namespace Sys2Proof.Tests

open Sys2Proof.Machine

/-- The reset state with `x6` and `x7` written. -/
def start (a b : Word64) : State := (State.reset.writeReg 6 (limbs a)).writeReg 7 (limbs b)

/-- The state after the command word `w` is issued, or `s` where no step is taken. -/
def after (w : Nat) (s : State) : State :=
  match step (s.withFetchWord 64 w) with
  | .next t => t
  | .fault _ => s
  | .refused _ => s

/-- The pattern of `x[r]` after the word `w` is issued with `x6 = a`, `x7 = b`. -/
def result (w : Nat) (a b : Word64) (r : RegIdx) : Word64 := ((after w (start a b)).readReg r).bits64

/-- A block in the fault state: `divMod x8, x9, x6, x7` was issued with `x7 = 0` (program P3). -/
def faultedState : State := after 0x0889670100000000 (start 5 0)

/-- Whether an outcome is this next state; outcomes themselves have no decidable equality. -/
def isNext (o : Host.Outcome State Fault Refusal) (t : State) : Bool :=
  match o with
  | .next s => decide (s = t)
  | .fault _ => false
  | .refused _ => false

theorem eq_next_of_isNext {o : Host.Outcome State Fault Refusal} {t : State} (h : isNext o t = true) : o = .next t := by
  cases o <;> simp_all [isNext]

/-! ## Well-formedness: an ill-formed term for each check of R90 -/

theorem test_wellFormed_accepts : (Instr.divModPair 8 9 6 7).wellFormed = true := by decide
theorem test_wellFormed_rd_is_a_constant : (Instr.add 5 6 1).wellFormed = false := by decide
theorem test_wellFormed_rr_is_a_constant : (Instr.divModPair 8 3 6 7).wellFormed = false := by decide
theorem test_wellFormed_rr_is_rd : (Instr.divModPair 8 8 6 7).wellFormed = false := by decide
theorem test_decode_refuses_reserved_opcode : decode 0x0260600000000000 = .error .reservedOpcode := by decide
theorem test_decode_refuses_unassigned_opcode : decode 0x1260670000000000 = .error .reservedOpcode := by decide
theorem test_decode_refuses_nonzero_imm : decode 0x0470610000000001 = .error .unusedFieldNotZero := by decide
theorem test_decode_refuses_nonzero_wr : decode 0x0470610100000000 = .error .unusedFieldNotZero := by decide
theorem test_decode_refuses_nonzero_z : decode 0x0470610200000000 = .error .unusedFieldNotZero := by decide
theorem test_decode_refuses_nonzero_rr : decode 0x0471610000000000 = .error .unusedFieldNotZero := by decide
theorem test_decode_refuses_nonzero_rb : decode 0x0670610000000000 = .error .unusedFieldNotZero := by decide
theorem test_decode_refuses_nonzero_ra : decode 0x0060600000000001 = .error .unusedFieldNotZero := by decide
theorem test_decode_refuses_rr_without_wr : decode 0x0889670000000000 = .error .unusedFieldNotZero := by decide
theorem test_legal_refuses_constant_destination : legal 0x0450610000000000 = false := by decide
theorem test_legal_refuses_zero_word : legal 0x0000000000000000 = false := by decide

/-! ## Decoding: every constructor, from a word of R98 or of 95_test_vectors.md -/

theorem test_decode_fromInt32 : decode 0x00600000FFFFFFFF = .ok (.fromInt32 6 (-1)) := by decide
theorem test_decode_toInt32 : decode 0x0370600000000000 = .ok (.toInt32 7 6) := by decide
theorem test_decode_add : decode 0x0470610000000000 = .ok (.add 7 6 1) := by decide
theorem test_decode_sub : decode 0x0570010000000000 = .ok (.sub 7 0 1) := by decide
theorem test_decode_neg : decode 0x0660400000000000 = .ok (.neg 6 4) := by decide
theorem test_decode_mul : decode 0x07A0430000000000 = .ok (.mul 10 4 3) := by decide
theorem test_decode_divModQuotient : decode 0x0880670000000000 = .ok (.divModQuotient 8 6 7) := by decide
theorem test_decode_divModPair : decode 0x08BC960100000000 = .ok (.divModPair 11 12 9 6) := by decide
theorem test_decode_shl : decode 0x097010000000003F = .ok (.shl 7 1 63) := by decide
theorem test_decode_shr : decode 0x0A806000FFFFFFFF = .ok (.shr 8 6 (-1)) := by decide
theorem test_decode_shru : decode 0x0B80300000000001 = .ok (.shru 8 3 1) := by decide
theorem test_decode_and : decode 0x0C80670000000000 = .ok (.and 8 6 7) := by decide
theorem test_decode_or : decode 0x0D70600000000000 = .ok (.or 7 6 0) := by decide
theorem test_decode_xor : decode 0x0E80670000000000 = .ok (.xor 8 6 7) := by decide
theorem test_decode_not : decode 0x0F60300000000000 = .ok (.not 6 3) := by decide
theorem test_decode_compare : decode 0x1060450000000000 = .ok (.compare 6 4 5) := by decide
theorem test_encode_divModPair : encode (.divModPair 8 9 6 7) = 0x0889670100000000 := by decide
theorem test_encode_fromInt32 : encode (.fromInt32 6 100) = 0x0060000000000064 := by decide
theorem test_table_word : decodeTableWord 64 0x0370600000000000 = some (.toInt32 7 6) := by decide

/-! ## One step of each command (vectors of 95_test_vectors.md, Part 2) -/

theorem test_fromInt32_negative : result 0x0060000080000000 0 0 6 = 0xFFFFFFFF80000000 := by decide
theorem test_toInt32_truncates : result 0x0370600000000000 0x123456789ABCDEF0 0 7 = 0xFFFFFFFF9ABCDEF0 := by decide
theorem test_add_carries_through : result 0x0480670000000000 0x00000FFFFFFFFFFF 1 8 = 0x0000100000000000 := by decide
theorem test_add_wraps : result 0x0480670000000000 0x7FFFFFFFFFFFFFFF 1 8 = 0x8000000000000000 := by decide
theorem test_sub_borrows_through : result 0x0580670000000000 0x0000100000000000 1 8 = 0x00000FFFFFFFFFFF := by decide
theorem test_sub_order : result 0x0580670000000000 0x0123456789ABCDEF 0x0FEDCBA987654321 8 = 0xF13579BE02468ACE := by decide
theorem test_neg_min : result 0x0670600000000000 0x8000000000000000 0 7 = 0x8000000000000000 := by decide
theorem test_neg_carries : result 0x0670600000000000 0x0000100000000000 0 7 = 0xFFFFF00000000000 := by decide
theorem test_mul_general : result 0x0780670000000000 0x0123456789ABCDEF 0xFEDCBA9876543210 8 = 0x2236D88FE5618CF0 := by decide
theorem test_mul_chunks :
    (limbs 0x0123456789ABCDEF).mulByChunks (limbs 0xFEDCBA9876543210) = limbs 0x2236D88FE5618CF0 := by decide
theorem test_shl_case_two : result 0x0970600000000016 0x8123456789ABCDEF 0 7 = 0x59E26AF37BC00000 := by decide
theorem test_shl_case_three : result 0x097060000000002C 0x8123456789ABCDEF 0 7 = 0xBCDEF00000000000 := by decide
theorem test_shr_negative_count : result 0x0A706000FFFFFFFF 0x8123456789ABCDEF 0 7 = 0xFFFFFFFFFFFFFFFF := by decide
theorem test_shr_sign_fill : result 0x0A70600000000017 0x8123456789ABCDEF 0 7 = 0xFFFFFF02468ACF13 := by decide
theorem test_shru_zero_fill : result 0x0B7060000000002B 0x8123456789ABCDEF 0 7 = 0x0000000000102468 := by decide
theorem test_shru_count_1000 : result 0x0B706000000003E8 0x8123456789ABCDEF 0 7 = 0x0000000000812345 := by decide
theorem test_and : result 0x0C80670000000000 0xF0F0F0F0F0F0F0F0 0x3C3C3C3C3C3C3C3C 8 = 0x3030303030303030 := by decide
theorem test_or : result 0x0D80670000000000 0xF0F0F0F0F0F0F0F0 0x3C3C3C3C3C3C3C3C 8 = 0xFCFCFCFCFCFCFCFC := by decide
theorem test_xor : result 0x0E80670000000000 0xF0F0F0F0F0F0F0F0 0x3C3C3C3C3C3C3C3C 8 = 0xCCCCCCCCCCCCCCCC := by decide
theorem test_not : result 0x0F80600000000000 0x00000FFFFFC00000 0 8 = 0xFFFFF000003FFFFF := by decide
theorem test_compare_signs : result 0x1080670000000000 0xFFFFFFFFFFFFFFFF 0 8 = 0xFFFFFFFFFFFFFFFF := by decide
theorem test_compare_high : result 0x1080670000000000 0x0000100000000000 0x00000FFFFFFFFFFF 8 = 1 := by decide
theorem test_divModQuotient_truncates : result 0x0880670000000000 0xFFFFFFFFFFFFFFF9 2 8 = 0xFFFFFFFFFFFFFFFD := by decide
theorem test_divModQuotient_min_by_minus_one :
    result 0x0880670000000000 0x8000000000000000 0xFFFFFFFFFFFFFFFF 8 = 0x8000000000000000 := by decide
theorem test_divModPair_remainder_sign :
    result 0x0889670100000000 0x8000000000000000 0xFFFFFFFFFFFFFFFD 9 = 0xFFFFFFFFFFFFFFFE := by decide
/-- Program P7: both sources are read before either destination is written. -/
theorem test_divModPair_overlap :
    result 0x0867670100000000 0xFFFFFFFFFFFFFFF9 2 6 = 0xFFFFFFFFFFFFFFFD ∧
    result 0x0867670100000000 0xFFFFFFFFFFFFFFF9 2 7 = 0xFFFFFFFFFFFFFFFF := by decide
theorem test_procedure_min_by_three :
    Int64Value.minValue.divModByProcedure (limbs 3) = some (limbs 0xD555555555555556, limbs 0xFFFFFFFFFFFFFFFE) := by
  decide +kernel
theorem test_procedure_hundred_by_seven : (limbs 100).divModByProcedure (limbs 7) = some (limbs 14, limbs 2) := by
  decide +kernel

/-! ## Faults, acknowledgement and host actions (program P3 and its variant) -/

theorem test_divide_by_zero_status : faultedState.status = 0x00000003 ∧ faultedState.fcmd = 0x0889670100000000 := by decide
theorem test_divide_by_zero_writes_nothing : faultedState.gprs = (start 5 0).gprs := by decide
theorem test_illegal_destination_status :
    (after 0x0450660000000000 (start 5 0)).status = 0x00000005 ∧
    (after 0x0450660000000000 (start 5 0)).fcmd = 0x0450660000000000 := by decide
theorem test_illegal_before_divide_by_zero : (after 0x0888600100000000 (start 5 0)).status = 0x00000005 := by decide
theorem test_acknowledge_keeps_fcmd :
    faultedState.acknowledge.status = 0 ∧ faultedState.acknowledge.fcmd = 0x0889670100000000 := by decide
theorem test_command_in_fault_state :
    step (faultedState.withFetchWord 64 0x04A0660000000000) = .fault .issueNotEnabled := rfl
theorem test_write_then_read :
    (hostRead 6 (start 0x0123456789ABCDEF 0)).answer = .pattern 0x0123456789ABCDEF := by decide
/-- Program P3 as a run: it ends faulted at index 2. -/
theorem test_run_faults_at_two :
    (run State.reset [0x0060000000000005, 0x0570660000000000, 0x0889670100000000, 0x04A0660000000000]).2 = 2 := by decide

/-! ## The software layer (95_test_vectors.md section 2.9) -/

theorem test_toDecimalString_chunk : toDecimalString (limbs 0x000000003B9ACA01) =
    ['1', '0', '0', '0', '0', '0', '0', '0', '0', '1'] := by decide +kernel
theorem test_toDouble_max : toDouble .maxValue = 0x43E0000000000000 := by decide +kernel
theorem test_fromDouble_minus_one_and_a_half : fromDouble 0xBFF8000000000000 = .negOne := by decide +kernel

/-! ## Witnesses: a state and operands that meet the hypotheses of each statement together -/

theorem test_witness_FromInt32WritesSignExtension : State.reset.faulted = false ∧ RegIdx.isGeneral 6 = true := by decide
theorem test_witness_ToInt32WritesTruncation : State.reset.faulted = false ∧ RegIdx.isGeneral 15 = true := by decide
theorem test_witness_AddWritesWrappedSum : (start 1 2).faulted = false ∧ RegIdx.isGeneral 6 = true := by decide
theorem test_witness_SubWritesWrappedDifference : (start 1 2).faulted = false ∧ RegIdx.isGeneral 7 = true := by decide
theorem test_witness_NegWritesWrappedNegation : (start 1 2).faulted = false ∧ RegIdx.isGeneral 8 = true := by decide
theorem test_witness_MulWritesWrappedProduct : (start 1 2).faulted = false ∧ RegIdx.isGeneral 9 = true := by decide
theorem test_witness_DivModQuotientWritesQuotient :
    (start 7 2).faulted = false ∧ RegIdx.isGeneral 8 = true ∧ ((start 7 2).readReg 7).sval ≠ 0 := by decide
theorem test_witness_DivModPairWritesBoth :
    (start 7 2).faulted = false ∧ RegIdx.isGeneral 6 = true ∧ RegIdx.isGeneral 15 = true ∧ (15 : RegIdx) ≠ 6 ∧
    ((start 7 2).readReg 7).sval ≠ 0 := by decide
theorem test_witness_ShlWritesShiftedPattern : (start 1 2).faulted = false ∧ RegIdx.isGeneral 10 = true := by decide
theorem test_witness_ShrWritesFlooredQuotient : (start 1 2).faulted = false ∧ RegIdx.isGeneral 11 = true := by decide
theorem test_witness_ShruWritesShiftedPattern : (start 1 2).faulted = false ∧ RegIdx.isGeneral 12 = true := by decide
theorem test_witness_AndWritesPatternAnd : (start 1 2).faulted = false ∧ RegIdx.isGeneral 13 = true := by decide
theorem test_witness_OrWritesPatternOr : (start 1 2).faulted = false ∧ RegIdx.isGeneral 14 = true := by decide
theorem test_witness_XorWritesPatternXor : (start 1 2).faulted = false ∧ RegIdx.isGeneral 15 = true := by decide
theorem test_witness_NotWritesPatternComplement : (start 1 2).faulted = false ∧ RegIdx.isGeneral 6 = true := by decide
theorem test_witness_CompareWritesSignedOrder : (start 1 2).faulted = false ∧ RegIdx.isGeneral 6 = true := by decide
theorem test_witness_EncodeOfDecodeIsTheWord : decode 0x0889670100000000 = .ok (.divModPair 8 9 6 7) := by decide
theorem test_witness_DecoderIsMatchUnderMask :
    (0x0470610000000000 : Word64) &&& (Instr.add 7 6 1).row.2 = (Instr.add 7 6 1).row.1 ∧
    decode 0x0470610000000000 = .ok (.add 7 6 1) := by decide
theorem test_witness_LegalIsTheFourChecks : State.reset.faulted = false ∧ legal 0x0450610000000000 = false := by decide
theorem test_witness_ReservedOpcodesAreIllegal :
    State.reset.faulted = false ∧ (fieldsOf 0x0160600000000000).op = 0x01 ∧ (fieldsOf 0x0260600000000000).op = 0x02 ∧
    0x11 ≤ (fieldsOf 0x1160600000000000).op.toNat := by decide
theorem test_witness_StepRunsTheDecodedCommand :
    (State.reset.withFetchWord 64 0x0470610000000000).pending = .issue 0x0470610000000000 :: [] ∧
    decode 0x0470610000000000 = .ok (.add 7 6 1) ∧ State.reset.faulted = false ∧
    decode 0x0100000000000000 = .error .reservedOpcode := by decide
theorem test_witness_DivideByZeroExactlyOnZeroDivisor :
    (Instr.divModPair 8 9 6 7).divisor = some 7 ∧ (Instr.divModPair 8 9 6 7).wellFormed = true ∧
    (start 5 0).faulted = false ∧ ((start 5 0).readReg 7).high = 0 ∧ ((start 5 0).readReg 7).mid = 0 ∧
    ((start 5 0).readReg 7).low = 0 ∧ faultedState.faulted = true := by decide
theorem test_witness_IllegalCommandExactlyForIllegalWords :
    (start 5 0).faulted = false ∧ legal 0x0888600100000000 = false ∧ (Instr.divModPair 8 8 6 0).wellFormed = false := by
  decide
theorem test_witness_EveryOtherCommandIsTotal :
    (start 5 2).faulted = false ∧ (Instr.divModQuotient 8 6 7).wellFormed = true ∧
    (Instr.divModQuotient 8 6 7).divisor = some 7 ∧ ((start 5 2).readReg 7).isZero = false := by decide
theorem test_witness_FaultStateTakesNoCommand : faultedState.faulted = true ∧ RegIdx.isGeneral 6 = true := by decide
theorem test_witness_CommandsWriteOnlyTheirDestinations :
    exec (.add 8 6 7) (start 1 2) = .next ((start 1 2).complete 8 (limbs 3)) ∧ (6 : RegIdx) ∉ (Instr.add 8 6 7).destinations ∧
    exec (.divModPair 8 9 6 7) (start 5 0) = .next ((start 5 0).faultEntry .divideByZero 0x0889670100000000) ∧
    ((start 5 0).faultEntry .divideByZero 0x0889670100000000).faulted = true :=
  ⟨eq_next_of_isNext (by decide), by decide, eq_next_of_isNext (by decide), by decide⟩
theorem test_witness_ResultDependsOnSourcesOnly :
    (∀ r ∈ (Instr.neg 8 6).sources, (start 1 2).readReg r = (start 1 3).readReg r) ∧ (start 1 3).faulted = false ∧
    exec (.neg 8 6) (start 1 2) = .next ((start 1 2).complete 8 .negOne) :=
  ⟨by decide, by decide, eq_next_of_isNext (by decide)⟩
theorem test_witness_ConversionsRoundTrip : fromInt32 (-1) = fromInt32 0xFFFFFFFF := by decide
theorem test_witness_ShiftLaws : (64 : Native) &&& 63 = (0 : Native) &&& 63 ∧ (63 : Native).toNat ≤ 63 := by decide
theorem test_witness_CompareLaws :
    Int64Value.minValue.compare .zero ≤ 0 ∧ Int64Value.zero.compare .maxValue ≤ 0 := by decide
theorem test_witness_GteIsTheSignedOrder :
    Int64Value.maxValue.isNegative = false ∧ Int64Value.zero.isNegative = false := by decide
theorem test_witness_TrialSubtractionTestsGte :
    Int64Value.zero.isNegative = false ∧ Int64Value.maxValue.isNegative = false := by decide
theorem test_gte : Int64Value.maxValue.gte .minValue = true ∧ Int64Value.minValue.gte .minValue = true ∧
    Int64Value.negOne.gte .zero = false ∧ Int64Value.zero.gte .one = false := by decide
theorem test_witness_MultiplyLaws : (63 : Native).toNat ≤ 63 := by decide
theorem test_witness_DivModPairIsTruncatedDivision :
    Int64Value.negOne ≠ .zero ∧ Int64Value.minValue.isNegative = Int64Value.negOne.isNegative ∧
    Int64Value.one.isNegative ≠ Int64Value.negOne.isNegative ∧ ¬(Int64Value.one = .minValue ∧ Int64Value.one = .negOne) := by
  decide
theorem test_witness_HostWriteSetsOneRegister :
    ({ State.reset with pending := [.write 6 5] } : State).pending = .write 6 5 :: [] ∧ RegIdx.isGeneral 6 = true ∧
    State.reset.faulted = false ∧ RegIdx.isGeneral 5 = false := by decide
theorem test_witness_HostReadsChangeNothing :
    ({ State.reset with pending := [.read 4] } : State).pending = .read 4 :: [] ∧
    ({ State.reset with pending := [.status] } : State).pending = .status :: [] := by decide
theorem test_witness_AcknowledgeReturnsFromTheFault :
    ({ faultedState with pending := [.ack] } : State).pending = .ack :: [] ∧
    ({ faultedState with pending := [.ack] } : State).faulted = true ∧ RegIdx.isGeneral 6 = true ∧
    ({ State.reset with pending := [.ack] } : State).faulted = false := by decide
theorem test_witness_ResetActionClearsTheControlRegisters :
    ({ faultedState with pending := [.reset] } : State).pending = .reset :: [] ∧ RegIdx.isGeneral 6 = true := by decide
/-- The premises of the invariant's preservation, in the reset state and in a state that reports a DivideByZero. -/
theorem test_witness_EveryStepKeepsTheInvariant :
    State.reset.Inv ∧ step State.reset = .next State.reset ∧ faultedState.Inv ∧ step faultedState = .next faultedState :=
  ⟨.inl (by decide), eq_next_of_isNext (by decide), .inr (.inl (by decide)), eq_next_of_isNext (by decide)⟩
theorem test_witness_StatusFieldsAgree : State.reset.Inv ∧ faultedState.Inv := ⟨.inl (by decide), .inr (.inl (by decide))⟩
/-- One step for each clause: a fault taken (FAULT set and FCMD changed), and a fault acknowledged. -/
theorem test_witness_FaultStateChangesOnlyByTheseEvents :
    step ((start 5 0).withFetchWord 64 0x0889670100000000) = .next faultedState ∧ (start 5 0).faulted = false ∧
    faultedState.faulted = true ∧ faultedState.fcmd ≠ (start 5 0).fcmd ∧
    step { faultedState with pending := [.ack] } = .next faultedState.acknowledge ∧
    faultedState.acknowledge.faulted = false :=
  ⟨eq_next_of_isNext (by decide), by decide, by decide, by decide, eq_next_of_isNext (by decide), by decide⟩
theorem test_witness_RegistersChangeOnlyByTheseEvents :
    step ((start 1 2).withFetchWord 64 0x0480670000000000) = .next ((start 1 2).complete 8 (limbs 3)) ∧
    ((start 1 2).complete 8 (limbs 3)).readReg 8 ≠ (start 1 2).readReg 8 :=
  ⟨eq_next_of_isNext (by decide), by decide⟩
theorem test_witness_StepIsTakenExactlyWhenEnabled :
    State.reset.pending = [] ∧ ({ State.reset with pending := [.ack] } : State).pending = .ack :: [] ∧
    State.reset.enabled .ack = false ∧ State.reset.enabled (.issue 0) = true ∧
    step { State.reset with pending := [.status] } = .next (hostStatus State.reset) :=
  ⟨by decide, by decide, by decide, by decide, eq_next_of_isNext (by decide)⟩
/-- One run that completes and one that ends at a fault. -/
theorem test_witness_RunCompletesOrStopsAtTheFault :
    State.reset.faulted = false ∧ (run State.reset [0x0060000000000005]).2 = 1 ∧
    (run State.reset [0x0060000000000005]).1.faulted = false ∧
    (run State.reset [0x0060000000000005, 0x0450660000000000]).1.faulted = true := by decide
theorem test_witness_RunIsSteppingTheMachine :
    State.reset.pending = [] ∧ State.reset.faulted = false ∧
    Completed [0x0060000000000005] (run State.reset [0x0060000000000005]) := ⟨by decide, by decide, by decide, by decide⟩
theorem test_witness_FromDoubleTruncatesOrSaturates :
    finiteDoubleValue true (2 ^ 64) 0 < -2 ^ 63 ∧ 2 ^ 63 ≤ finiteDoubleValue false (2 ^ 63) 0 ∧
    -2 ^ 63 ≤ finiteDoubleValue true (2 ^ 63) 0 ∧ finiteDoubleValue true (2 ^ 63) 0 < 2 ^ 63 := by
  refine ⟨?_, ?_, ?_, ?_⟩ <;> norm_num [finiteDoubleValue]
theorem test_witness_ToDoubleIsExactUpTo53Bits : |(limbs 0x0020000000000000).sval| ≤ 2 ^ 53 := by decide

end Sys2Proof.Tests
end

section
/-! The views of a value agree (00_scope.md rule R9, 10_state.md rule R22): its sign and its signed value are those of the
64-bit pattern read as a two's-complement word, so the library's facts about `BitVec.toInt` carry over to values. -/

namespace Sys2Proof

/-- Each limb is its field of the pattern (R22). -/
theorem Int64Value.limbs_eq_extract (v : Int64Value) :
    v.low = v.bits64.extractLsb' 0 22 ∧ v.mid = v.bits64.extractLsb' 22 22 ∧ v.high = v.bits64.extractLsb' 44 20 := by
  have h := limbs_bits64 v
  exact ⟨(congrArg Int64Value.low h).symm, (congrArg Int64Value.mid h).symm, (congrArg Int64Value.high h).symm⟩

theorem Int64Value.isNegative_eq_msb_high (v : Int64Value) : v.isNegative = v.high.msb :=
  (BitVec.msb_eq_getLsbD_last v.high).symm

/-- The sign bit of `high` is the top bit of the pattern (R22). -/
theorem Int64Value.isNegative_eq_msb_bits64 (v : Int64Value) : v.isNegative = v.bits64.msb := by
  rw [v.isNegative_eq_msb_high, Int64Value.bits64, BitVec.msb_append, BitVec.msb_append]
  simp

theorem Int64Value.isNegative_iff_le_high (v : Int64Value) : v.isNegative = true ↔ 2 ^ 19 ≤ v.high.toNat := by
  rw [v.isNegative_eq_msb_high, BitVec.msb_eq_true_iff_two_mul_ge]
  omega

/-- The signed value is the two's-complement reading of the pattern (R9). -/
theorem Int64Value.sval_eq_toInt (v : Int64Value) : v.sval = v.bits64.toInt := by
  rw [Int64Value.sval, v.isNegative_eq_msb_bits64, BitVec.toInt_eq_msb_cond]
  rfl

theorem Int64Value.isNegative_iff_sval_neg (v : Int64Value) : v.isNegative = true ↔ v.sval < 0 := by
  rw [v.isNegative_eq_msb_bits64, v.sval_eq_toInt, BitVec.msb_eq_toInt, decide_eq_true_iff]

theorem Int64Value.le_sval (v : Int64Value) : -2 ^ 63 ≤ v.sval := by
  rw [v.sval_eq_toInt]
  exact BitVec.le_toInt v.bits64

theorem Int64Value.sval_lt (v : Int64Value) : v.sval < 2 ^ 63 := by
  rw [v.sval_eq_toInt]
  exact BitVec.toInt_lt

/-- A value is recovered from its signed value (R9). -/
@[simp] theorem wrap_sval (v : Int64Value) : wrap v.sval = v := by
  rw [wrap, v.sval_eq_toInt, BitVec.ofInt_toInt, limbs_bits64]

/-- Wrapping reduces to the signed 64-bit residue (R9). -/
@[simp] theorem sval_wrap (n : Int) : (wrap n).sval = n.bmod (2 ^ 64) := by
  rw [Int64Value.sval_eq_toInt, bits64_wrap, BitVec.toInt_ofInt]

/-- Wrapping keeps the residue modulo `2^64` (R9). -/
theorem toNat_bits64_wrap (n : Int) : ((wrap n).bits64.toNat : Int) = n % 2 ^ 64 := by
  rw [bits64_wrap, BitVec.toNat_ofInt]
  exact Int.toNat_of_nonneg (Int.emod_nonneg n (by decide))

theorem Int64Value.eq_iff_limbs {a b : Int64Value} : a = b ↔ a.low = b.low ∧ a.mid = b.mid ∧ a.high = b.high := by
  cases a
  cases b
  rw [Int64Value.mk.injEq]
  tauto

theorem Int64Value.eq_iff_bits64 {a b : Int64Value} : a = b ↔ a.bits64 = b.bits64 :=
  ⟨congrArg Int64Value.bits64, Int64Value.ext_bits64⟩

/-- Settles O31: every view of a value is a view of its pattern (`limbs_bits64`, `sval_eq_toInt`). -/
theorem viewsOfAValueAgree : Obligations.ViewsOfAValueAgree := by
  refine ⟨fun v => ?_, bits64_limbs, fun n => ⟨toNat_bits64_wrap n, sval_wrap n⟩,
    fun a b => ⟨Int64Value.eq_iff_limbs, Int64Value.eq_iff_bits64⟩⟩
  obtain ⟨hlow, hmid, hhigh⟩ := v.limbs_eq_extract
  have hbit63 : v.isNegative = v.bits64.getLsbD 63 :=
    v.isNegative_eq_msb_bits64.trans (BitVec.msb_eq_getLsbD_last v.bits64)
  exact ⟨v.bits64_toNat, hlow, hmid, hhigh, rfl, hbit63, v.isNegative_iff_sval_neg, v.isNegative_iff_le_high,
    rfl, v.le_sval, v.sval_lt, wrap_sval v, limbs_bits64 v⟩

end Sys2Proof
end

section
/-! A word is the word of the command it decodes to (30_encoding.md rules R71, R92): the decoder drops no bit, because the
fields its format does not use are zero. So `FCMD` after a fault is the word that the host issued. -/

namespace Sys2Proof

/-- The fields a command was built from are the fields of its word (R72, R92). -/
theorem Opcode.fields_build {o : Opcode} {f : Fields} (hop : o.code = f.op) (hz : o.format.unusedZero f = true) :
    (o.build f).fields = f := by
  obtain ⟨op, rd, rr, ra, rb, z, wr, imm⟩ := f
  subst hop
  cases o
  case divMod =>
    simp only [Opcode.format, Format.unusedZero, Bool.and_eq_true, Bool.or_eq_true, beq_iff_eq] at hz
    obtain ⟨⟨rfl, rfl⟩, hform⟩ := hz
    by_cases hwr : wr = 1
    · subst hwr
      simp [Opcode.build, Instr.fields]
    · obtain rfl : wr = 0 := by bv_omega
      obtain rfl : rr = 0 := hform.resolve_left hwr
      simp [Opcode.build, Instr.fields]
  all_goals
    simp only [Opcode.format, Format.unusedZero, Bool.and_eq_true, beq_iff_eq] at hz
    simp [Opcode.build, Instr.fields, hz]

/-- What the decoder accepts: a command opcode, its unused fields zero, and the command built from the fields (R90). -/
theorem decode_eq_ok {cw : Word64} {i : Instr} (h : decode cw = .ok i) :
    ∃ o, opcodeOf (fieldsOf cw).op = some o ∧ o.format.unusedZero (fieldsOf cw) = true ∧ i = o.build (fieldsOf cw) := by
  unfold decode at h
  split at h
  · cases h
  · rename_i o ho
    split at h
    · rename_i hz
      cases h
      exact ⟨o, ho, hz, rfl⟩
    · cases h

/-- The command a word decodes to encodes to that word (R92). -/
theorem encode_of_decode {cw : Word64} {i : Instr} (h : decode cw = .ok i) : encode i = cw := by
  obtain ⟨o, ho, hz, rfl⟩ := decode_eq_ok h
  rw [encode, Opcode.fields_build (code_of_opcodeOf ho) hz, wordOf_fieldsOf]

theorem legal_of_decode_ok {cw : Word64} {i : Instr} (h : decode cw = .ok i) : legal cw = i.wellFormed := by
  simp [legal, h]

theorem legal_of_decode_error {cw : Word64} {e : DecodeError} (h : decode cw = .error e) : legal cw = false := by
  simp [legal, h]

end Sys2Proof
end

section
/-! What every state shows: the constants (10_state.md rules R25, R27), and the level of `FAULT` after each update (R34). -/

namespace Sys2Proof.Machine

/-! ## The constants -/

@[simp] theorem State.readReg_x0 (s : State) : s.readReg 0 = .zero := rfl
@[simp] theorem State.readReg_x1 (s : State) : s.readReg 1 = .one := rfl
@[simp] theorem State.readReg_x2 (s : State) : s.readReg 2 = .two := rfl
@[simp] theorem State.readReg_x3 (s : State) : s.readReg 3 = .negOne := rfl
@[simp] theorem State.readReg_x4 (s : State) : s.readReg 4 = .minValue := rfl
@[simp] theorem State.readReg_x5 (s : State) : s.readReg 5 = .maxValue := rfl

/-- A register that is not general reads the same in any two states (R27). -/
theorem State.readReg_constant {r : RegIdx} (h : r.isGeneral = false) (s t : State) : s.readReg r = t.readReg r := by
  simp only [RegIdx.isGeneral, decide_eq_false_iff_not] at h
  unfold State.readReg
  split
  case h_7 k hk => omega
  all_goals rfl

/-- Writing one register in two states makes every register agree that agreed before, and that register. -/
theorem State.readReg_writeReg_congr {s₁ s₂ : State} {r x : RegIdx} (v : Int64Value) (hr : r.isGeneral = true)
    (h : x ≠ r → s₁.readReg x = s₂.readReg x) : (s₁.writeReg r v).readReg x = (s₂.writeReg r v).readReg x := by
  by_cases hx : x = r
  · subst hx
    rw [State.readReg_writeReg_same s₁ x v hr, State.readReg_writeReg_same s₂ x v hr]
  · rw [State.readReg_writeReg_other s₁ r x v hx, State.readReg_writeReg_other s₂ r x v hx, h hx]

/-! ## FAULT -/

theorem State.faulted_congr {s t : State} (h : t.status = s.status) : t.faulted = s.faulted := by
  rw [State.faulted, h, State.faulted]

/-- A `STATUS` made of fields shows its own level of `FAULT` (R34). -/
theorem State.faulted_of_status {s : State} {f : Bool} {c : Cause} (h : s.status = statusWord f c) : s.faulted = f := by
  rw [State.faulted, h, statusWord_fault]

/-- The zero word reports no fault and no cause (R34, R36). -/
theorem zero_eq_statusWord : (0 : BitVec 32) = statusWord false .none := by decide

@[simp] theorem State.faultEntry_faulted (s : State) (c : Cause) (w : Word64) : (s.faultEntry c w).faulted = true :=
  State.faulted_of_status (s.faultEntry_status c w)

@[simp] theorem State.acknowledge_faulted (s : State) : s.acknowledge.faulted = false :=
  State.faulted_of_status s.acknowledge_status

@[simp] theorem State.hostReset_faulted (s : State) : s.hostReset.faulted = false :=
  State.faulted_of_status (s.hostReset_status.trans zero_eq_statusWord)

/-! ## STATUS words -/

theorem Cause.code_eq_zero_iff (c : Cause) : c.code = 0 ↔ c = .none := by cases c <;> decide

/-- No cause has code 3 (R34). -/
theorem Cause.code_ne_three (c : Cause) : c.code ≠ 3 := by cases c <;> decide

/-- Bits `[31:3]` of a word made of fields are zero (R34). -/
@[simp] theorem statusWord_upper (f : Bool) (c : Cause) : (statusWord f c).extractLsb' 3 29 = 0 := by
  cases f <;> cases c <;> rfl

end Sys2Proof.Machine
end

section
/-! What a command changes and what it depends on (10_state.md rules R29, R33, 60_exceptions.md rule R274). -/

namespace Sys2Proof.Machine

/-- `t` is `s` after a command completed: nothing but its destinations and the answer to the host changed (R29, R95). -/
structure CommandCompleted (i : Instr) (s t : State) : Prop where
  frame : ∀ r, r ∉ i.destinations → t.readReg r = s.readReg r
  status : t.status = s.status
  fcmd : t.fcmd = s.fcmd
  pending : t.pending = s.pending
  resets : t.resets = s.resets

theorem State.complete_commandCompleted {i : Instr} {rd : RegIdx} (s : State) (v : Int64Value)
    (hd : i.destinations = [rd]) : CommandCompleted i s (s.complete rd v) where
  frame r hr := by
    rw [hd, List.mem_singleton] at hr
    rw [State.complete_readReg, State.readReg_writeReg_other s rd r v hr]
  status := s.complete_status rd v
  fcmd := s.complete_fcmd rd v
  pending := s.complete_pending rd v
  resets := s.complete_resets rd v

theorem State.completePair_commandCompleted {i : Instr} {rd rr : RegIdx} (s : State) (q v : Int64Value)
    (hd : i.destinations = [rd, rr]) : CommandCompleted i s (s.completePair rd rr q v) where
  frame r hr := by
    simp only [hd, List.mem_cons, List.not_mem_nil, or_false, not_or] at hr
    obtain ⟨hrd, hrr⟩ := hr
    rw [State.completePair_readReg, State.readReg_writeReg_other _ rr r v hrr, State.readReg_writeReg_other s rd r q hrd]
  status := s.completePair_status rd rr q v
  fcmd := s.completePair_fcmd rd rr q v
  pending := s.completePair_pending rd rr q v
  resets := s.completePair_resets rd rr q v

/-- A legal command completes, or it is a `divMod` by zero and only takes the fault (R271, R278). -/
theorem CommandEffect.completed_or_divideByZero {i : Instr} {s t : State} (h : CommandEffect i s t) :
    CommandCompleted i s t ∨
      (∃ rb, i.divisor = some rb ∧ (s.readReg rb).isZero = true) ∧ t = s.faultEntry .divideByZero (encode i) := by
  cases h with
  | divideByZero rb hdiv hzero => exact .inr ⟨⟨rb, hdiv, hzero⟩, rfl⟩
  | one rd v hd _ => exact .inl (s.complete_commandCompleted v hd)
  | pair rd rr q r hd _ => exact .inl (s.completePair_commandCompleted q r hd)

/-- A command that answers a next state completes, or only takes a fault with its own word. -/
theorem exec_completed_or_fault {i : Instr} {s t : State} (h : exec i s = .next t) :
    CommandCompleted i s t ∨ ∃ c, t = s.faultEntry c (encode i) := by
  obtain ⟨-, ⟨-, heff⟩ | ⟨-, ht⟩⟩ := exec_next h
  · exact heff.completed_or_divideByZero.imp_right fun ⟨_, ht⟩ => ⟨_, ht⟩
  · exact .inr ⟨_, ht⟩

/-- Settles O28: a command completes with its frame, or takes a fault, which writes no register. -/
theorem commandsWriteOnlyTheirDestinations : Obligations.CommandsWriteOnlyTheirDestinations := by
  intro s t i h
  have hready : s.faulted = false := (exec_next h).1
  obtain hc | ⟨c, rfl⟩ := exec_completed_or_fault h
  · have hnot : t.faulted = false := (State.faulted_congr hc.status).trans hready
    exact ⟨hc.frame, fun hf => by simp [hnot] at hf, hc.pending, hc.resets⟩
  · exact ⟨fun _ _ => rfl, fun _ _ => rfl, rfl, rfl⟩

/-! ## Dependence on the sources alone -/

/-- The two states show the same contents of the registers that the command reads (R29). -/
def AgreeOnSources (i : Instr) (s₁ s₂ : State) : Prop := ∀ r ∈ i.sources, s₁.readReg r = s₂.readReg r

/-- A legal command does one and the same thing to two states: it takes DivideByZero, or it writes the same results. -/
inductive SameEffect (i : Instr) (s₁ s₂ : State) : State → State → Prop where
  | divideByZero : SameEffect i s₁ s₂ (s₁.faultEntry .divideByZero (encode i)) (s₂.faultEntry .divideByZero (encode i))
  | one (rd : RegIdx) (v : Int64Value) (dest : i.destinations = [rd]) :
      SameEffect i s₁ s₂ (s₁.complete rd v) (s₂.complete rd v)
  | pair (rd rr : RegIdx) (q r : Int64Value) (dests : i.destinations = [rd, rr]) :
      SameEffect i s₁ s₂ (s₁.completePair rd rr q r) (s₂.completePair rd rr q r)

/-- A command whose result is a function of one register has the same effect where its sources agree. -/
theorem SameEffect.unary {i : Instr} {rd ra : RegIdx} (g : Int64Value → Int64Value) (hd : i.destinations = [rd])
    (hs : i.sources = [ra]) (s₁ s₂ : State) (h : AgreeOnSources i s₁ s₂) :
    SameEffect i s₁ s₂ (s₁.complete rd (g (s₁.readReg ra))) (s₂.complete rd (g (s₂.readReg ra))) := by
  have ha : s₁.readReg ra = s₂.readReg ra := h ra (by simp [hs])
  rw [ha]
  exact .one rd _ hd

/-- A command whose result is a function of two registers has the same effect where its sources agree. -/
theorem SameEffect.binary {i : Instr} {rd ra rb : RegIdx} (g : Int64Value → Int64Value → Int64Value)
    (hd : i.destinations = [rd]) (hs : i.sources = [ra, rb]) (s₁ s₂ : State) (h : AgreeOnSources i s₁ s₂) :
    SameEffect i s₁ s₂ (s₁.complete rd (g (s₁.readReg ra) (s₁.readReg rb)))
      (s₂.complete rd (g (s₂.readReg ra) (s₂.readReg rb))) := by
  have ha : s₁.readReg ra = s₂.readReg ra := h ra (by simp [hs])
  have hb : s₁.readReg rb = s₂.readReg rb := h rb (by simp [hs])
  rw [ha, hb]
  exact .one rd _ hd

theorem divModQuotientEffect_same (rd ra rb : RegIdx) (s₁ s₂ : State)
    (h : AgreeOnSources (.divModQuotient rd ra rb) s₁ s₂) :
    SameEffect (.divModQuotient rd ra rb) s₁ s₂ (divModQuotientEffect rd ra rb s₁) (divModQuotientEffect rd ra rb s₂) := by
  have ha : s₁.readReg ra = s₂.readReg ra := h ra (by simp [Instr.sources])
  have hb : s₁.readReg rb = s₂.readReg rb := h rb (by simp [Instr.sources])
  unfold divModQuotientEffect
  rw [ha, hb]
  split
  · exact .divideByZero
  · exact .one rd _ rfl

theorem divModPairEffect_same (rd rr ra rb : RegIdx) (s₁ s₂ : State)
    (h : AgreeOnSources (.divModPair rd rr ra rb) s₁ s₂) :
    SameEffect (.divModPair rd rr ra rb) s₁ s₂ (divModPairEffect rd rr ra rb s₁) (divModPairEffect rd rr ra rb s₂) := by
  have ha : s₁.readReg ra = s₂.readReg ra := h ra (by simp [Instr.sources])
  have hb : s₁.readReg rb = s₂.readReg rb := h rb (by simp [Instr.sources])
  unfold divModPairEffect
  rw [ha, hb]
  split
  · exact .divideByZero
  · exact .pair rd rr _ _ rfl

/-- Every command is `performCommand` of an effect that reads its source registers alone (R29, R33). -/
theorem exec_reads_sources (i : Instr) :
    ∃ f, (∀ s, exec i s = performCommand i f s) ∧
      ∀ s₁ s₂, AgreeOnSources i s₁ s₂ → SameEffect i s₁ s₂ (f s₁) (f s₂) := by
  cases i with
  | fromInt32 rd imm => exact ⟨_, exec_fromInt32 rd imm, fun _ _ _ => .one rd _ rfl⟩
  | toInt32 rd ra => exact ⟨_, exec_toInt32 rd ra, .unary (fun a => fromInt32 (toInt32 a)) rfl rfl⟩
  | add rd ra rb => exact ⟨_, exec_add rd ra rb, .binary Int64Value.add rfl rfl⟩
  | sub rd ra rb => exact ⟨_, exec_sub rd ra rb, .binary Int64Value.sub rfl rfl⟩
  | neg rd ra => exact ⟨_, exec_neg rd ra, .unary Int64Value.neg rfl rfl⟩
  | mul rd ra rb => exact ⟨_, exec_mul rd ra rb, .binary Int64Value.mul rfl rfl⟩
  | divModQuotient rd ra rb => exact ⟨_, exec_divModQuotient rd ra rb, divModQuotientEffect_same rd ra rb⟩
  | divModPair rd rr ra rb => exact ⟨_, exec_divModPair rd rr ra rb, divModPairEffect_same rd rr ra rb⟩
  | shl rd ra n => exact ⟨_, exec_shl rd ra n, .unary (Int64Value.shl · n) rfl rfl⟩
  | shr rd ra n => exact ⟨_, exec_shr rd ra n, .unary (Int64Value.shr · n) rfl rfl⟩
  | shru rd ra n => exact ⟨_, exec_shru rd ra n, .unary (Int64Value.shru · n) rfl rfl⟩
  | and rd ra rb => exact ⟨_, exec_and rd ra rb, .binary Int64Value.and rfl rfl⟩
  | or rd ra rb => exact ⟨_, exec_or rd ra rb, .binary Int64Value.or rfl rfl⟩
  | xor rd ra rb => exact ⟨_, exec_xor rd ra rb, .binary Int64Value.xor rfl rfl⟩
  | not rd ra => exact ⟨_, exec_not rd ra, .unary Int64Value.not rfl rfl⟩
  | compare rd ra rb =>
    exact ⟨_, exec_compare rd ra rb, .binary (fun a b => fromInt32 (BitVec.ofInt 32 (a.compare b))) rfl rfl⟩

/-- What a program can tell of a command from its end state: the fault with its cause and word, or the contents of the
destinations, and the answer to the host. -/
def SameResult (i : Instr) (t₁ t₂ : State) : Prop :=
  t₂.faulted = t₁.faulted ∧ t₂.answer = t₁.answer ∧
    (t₁.faulted = false → ∀ r ∈ i.destinations, t₂.readReg r = t₁.readReg r) ∧
    (t₁.faulted = true → t₂.fcmd = t₁.fcmd ∧ t₂.status = t₁.status)

theorem State.faultEntry_sameResult (i : Instr) (s₁ s₂ : State) (c : Cause) (w : Word64) :
    SameResult i (s₁.faultEntry c w) (s₂.faultEntry c w) :=
  ⟨by simp, rfl, fun hf => by simp at hf, fun _ => ⟨rfl, rfl⟩⟩

/-- In ready states the same effect of a legal command is the same result. -/
theorem SameEffect.sameResult {i : Instr} {s₁ s₂ t₁ t₂ : State} (h : SameEffect i s₁ s₂ t₁ t₂)
    (hw : i.wellFormed = true) (h₁ : s₁.faulted = false) (h₂ : s₂.faulted = false) : SameResult i t₁ t₂ := by
  have hgen : ∀ r ∈ i.destinations, r.isGeneral = true := by
    simp only [Instr.wellFormed, Bool.and_eq_true, List.all_eq_true] at hw
    exact hw.1
  cases h with
  | divideByZero => exact State.faultEntry_sameResult i s₁ s₂ _ _
  | one rd v hd =>
    have hf₁ : (s₁.complete rd v).faulted = false := (State.faulted_congr (by simp)).trans h₁
    have hf₂ : (s₂.complete rd v).faulted = false := (State.faulted_congr (by simp)).trans h₂
    refine ⟨hf₂.trans hf₁.symm, rfl, fun _ x hx => ?_, fun hf => by simp [hf₁] at hf⟩
    rw [hd, List.mem_singleton] at hx
    exact State.readReg_writeReg_congr v (hgen rd (by simp [hd])) (absurd hx)
  | pair rd rr q v hd =>
    have hf₁ : (s₁.completePair rd rr q v).faulted = false := (State.faulted_congr (by simp)).trans h₁
    have hf₂ : (s₂.completePair rd rr q v).faulted = false := (State.faulted_congr (by simp)).trans h₂
    refine ⟨hf₂.trans hf₁.symm, rfl, fun _ x hx => ?_, fun hf => by simp [hf₁] at hf⟩
    simp only [hd, List.mem_cons, List.not_mem_nil, or_false] at hx
    exact State.readReg_writeReg_congr v (hgen rr (by simp [hd])) fun hrr =>
      State.readReg_writeReg_congr q (hgen rd (by simp [hd])) fun hrd => absurd hx (by simp [hrd, hrr])

/-- Settles O29: every command's effect reads its source registers alone (`exec_reads_sources`). -/
theorem resultDependsOnSourcesOnly : Obligations.ResultDependsOnSourcesOnly := by
  intro s₁ s₂ t₁ i hsrc h₂ h
  obtain ⟨f, hf, hsame⟩ := exec_reads_sources i
  rw [hf] at h
  obtain ⟨h₁, ⟨hw, rfl⟩ | ⟨hw, rfl⟩⟩ := performCommand_next h
  · exact ⟨f s₂, by rw [hf, performCommand_wellFormed i f s₂ h₂ hw], (hsame s₁ s₂ hsrc).sameResult hw h₁ h₂⟩
  · exact ⟨_, by rw [hf, performCommand_illFormed i f s₂ h₂ hw], State.faultEntry_sameResult i s₁ s₂ _ _⟩

end Sys2Proof.Machine
end

section
/-! What an issued word and a step can do, said once (30_encoding.md rule R95, 20_memory.md rules R52, R59), and the
safety statements of 10_state.md that follow: which events change FAULT, FCMD and the value registers. -/

namespace Sys2Proof.Machine

theorem State.dividesByZero_iff {s : State} {cw : Word64} :
    s.dividesByZero cw = true ↔
      ∃ i rb, decode cw = .ok i ∧ i.divisor = some rb ∧ i.wellFormed = true ∧ (s.readReg rb).isZero = true := by
  unfold State.dividesByZero
  cases decode cw with
  | error e => simp
  | ok i => cases hdiv : i.divisor <;> simp [hdiv]

/-- Whether a word divides by zero is a matter of the value registers. -/
theorem State.dividesByZero_congr {s t : State} (h : ∀ r, t.readReg r = s.readReg r) (cw : Word64) :
    t.dividesByZero cw = s.dividesByZero cw := by
  rw [Bool.eq_iff_iff, State.dividesByZero_iff, State.dividesByZero_iff]
  simp only [h]

/-- What an issued word can make of a ready state. -/
inductive WordEffect (cw : Word64) (s : State) : State → Prop where
  | illegalCommand (illegal : legal cw = false) : WordEffect cw s (s.faultEntry .illegalCommand cw)
  | divideByZero (divides : s.dividesByZero cw = true) : WordEffect cw s (s.faultEntry .divideByZero cw)
  | completed {t : State} (i : Instr) (decodes : decode cw = .ok i) (wellFormed : i.wellFormed = true)
      (done : CommandCompleted i s t) : WordEffect cw s t

/-- Everything an issued word can do when it answers a next state. -/
theorem performWord_next {cw : Word64} {s t : State} (h : performWord cw s = .next t) :
    s.faulted = false ∧ WordEffect cw s t := by
  cases hd : decode cw with
  | error e =>
    rw [performWord_error hd] at h
    obtain ⟨hready, rfl⟩ := performIllegal_next h
    exact ⟨hready, .illegalCommand (legal_of_decode_error hd)⟩
  | ok i =>
    rw [performWord_ok hd] at h
    have hcw : encode i = cw := encode_of_decode hd
    obtain ⟨hready, ⟨hw, heff⟩ | ⟨hw, rfl⟩⟩ := exec_next h
    · obtain hc | ⟨⟨rb, hdiv, hzero⟩, rfl⟩ := heff.completed_or_divideByZero
      · exact ⟨hready, .completed i hd hw hc⟩
      · rw [hcw]
        exact ⟨hready, .divideByZero (State.dividesByZero_iff.mpr ⟨i, rb, hd, hdiv, hw, hzero⟩)⟩
    · rw [hcw]
      exact ⟨hready, .illegalCommand ((legal_of_decode_ok hd).trans hw)⟩

/-- What the block can make of a state `s` when the host takes the action. -/
inductive ActionEffect (s : State) : HostAction → State → Prop where
  | reset : ActionEffect s .reset s.hostReset
  | write (r : RegIdx) (b : Word64) (general : r.isGeneral = true) (ready : s.faulted = false) :
      ActionEffect s (.write r b) { s.writeReg r (limbs b) with answer := .nothing }
  | read (r : RegIdx) : ActionEffect s (.read r) (hostRead r s)
  | issue {t : State} (cw : Word64) (ready : s.faulted = false) (effect : WordEffect cw s t) :
      ActionEffect s (.issue cw) t
  | status : ActionEffect s .status (hostStatus s)
  | ack (faulted : s.faulted = true) : ActionEffect s .ack s.acknowledge

/-- Everything a host action can do when it answers a next state (R52). -/
theorem hostAction_next {a : HostAction} {s t : State} (h : hostAction a s = .next t) : ActionEffect s a t := by
  cases a with
  | reset => cases h; exact .reset
  | write r b =>
    obtain ⟨hg, hready, rfl⟩ := hostWrite_next h
    exact .write r b hg hready
  | read r => cases h; exact .read r
  | issue cw =>
    obtain ⟨hready, heff⟩ := performWord_next h
    exact .issue cw hready heff
  | status => cases h; exact .status
  | ack =>
    obtain ⟨hf, rfl⟩ := hostAck_next h
    exact .ack hf

/-- Everything a step can do when it answers a next state: it idles, or takes the host's next action off the list. -/
theorem step_next {s t : State} (h : step s = .next t) :
    (s.pending = [] ∧ t = s) ∨ ∃ a rest, s.pending = a :: rest ∧ ActionEffect { s with pending := rest } a t := by
  cases hp : s.pending with
  | nil =>
    rw [step_idle hp] at h
    cases h
    exact .inl ⟨rfl, rfl⟩
  | cons a rest =>
    rw [step_action hp] at h
    exact .inr ⟨a, rest, rfl, hostAction_next h⟩

/-! ## Which events change FAULT and FCMD -/

/-- `FAULT` goes up only by an issued word that takes a fault (R35, R274). -/
theorem ActionEffect.fault_set {a : HostAction} {s t : State} (h : ActionEffect s a t) (hs : s.faulted = false)
    (ht : t.faulted = true) :
    ∃ cw, a = .issue cw ∧ t.fcmd = cw ∧ (legal cw = false ∨ s.dividesByZero cw = true) := by
  have same (hst : t.status = s.status) : False := by simp [State.faulted_congr hst, hs] at ht
  cases h with
  | reset => simp at ht
  | write r b _ _ => exact (same (by simp)).elim
  | read r => exact (same rfl).elim
  | status => exact (same rfl).elim
  | ack _ => simp at ht
  | issue cw _ heff =>
    cases heff with
    | illegalCommand hl => exact ⟨cw, rfl, rfl, .inl hl⟩
    | divideByZero hz => exact ⟨cw, rfl, rfl, .inr hz⟩
    | completed i _ _ hc => exact (same hc.status).elim

/-- `FAULT` goes down only by the acknowledgement and by reset (R34, R275). -/
theorem ActionEffect.fault_cleared {a : HostAction} {s t : State} (h : ActionEffect s a t) (hs : s.faulted = true)
    (ht : t.faulted = false) : a = .ack ∨ a = .reset := by
  have same (hst : t.status = s.status) : False := by simp [State.faulted_congr hst, hs] at ht
  cases h with
  | reset => exact .inr rfl
  | write r b _ hready => simp [hs] at hready
  | read r => exact (same rfl).elim
  | status => exact (same rfl).elim
  | ack _ => exact .inl rfl
  | issue cw hready _ => simp [hs] at hready

/-- `FCMD` changes only to the word of a fault taken, or by reset (R35). -/
theorem ActionEffect.fcmd_changed {a : HostAction} {s t : State} (h : ActionEffect s a t) (hne : t.fcmd ≠ s.fcmd) :
    (∃ cw, a = .issue cw ∧ t.fcmd = cw ∧ t.faulted = true) ∨ a = .reset := by
  cases h with
  | reset => exact .inr rfl
  | write r b _ _ => exact absurd (by simp) hne
  | read r => exact absurd rfl hne
  | status => exact absurd rfl hne
  | ack _ => exact absurd rfl hne
  | issue cw _ heff =>
    cases heff with
    | illegalCommand _ => exact .inl ⟨cw, rfl, rfl, by simp⟩
    | divideByZero _ => exact .inl ⟨cw, rfl, rfl, by simp⟩
    | completed i _ _ hc => exact absurd hc.fcmd hne

/-- Settles O51: an idle step changes nothing, and the three clauses hold of each host action. -/
theorem faultStateChangesOnlyByTheseEvents : Obligations.FaultStateChangesOnlyByTheseEvents := by
  intro s t h
  obtain ⟨-, rfl⟩ | ⟨a, rest, hp, heff⟩ := step_next h
  · exact ⟨fun h₀ h₁ => by simp [h₀] at h₁, fun h₁ h₀ => by simp [h₀] at h₁, fun hne => absurd rfl hne⟩
  · refine ⟨fun hs ht => ?_, fun hs ht => ?_, fun hne => ?_⟩
    · obtain ⟨cw, rfl, hfcmd, hcause⟩ := heff.fault_set hs ht
      exact ⟨cw, rest, hp, hfcmd, hcause⟩
    · obtain rfl | rfl := heff.fault_cleared hs ht
      · exact ⟨rest, .inl hp⟩
      · exact ⟨rest, .inr hp⟩
    · obtain ⟨cw, rfl, hfcmd, ht⟩ | rfl := heff.fcmd_changed hne
      · exact .inl ⟨cw, rest, hp, hfcmd, ht⟩
      · exact .inr ⟨rest, hp⟩

/-! ## Which events change a value register -/

/-- A value register changes only by reset, a write to it, or a command that completes with it as a destination (R29). -/
theorem ActionEffect.register_changed {a : HostAction} {s t : State} {r : RegIdx} (h : ActionEffect s a t)
    (hne : t.readReg r ≠ s.readReg r) :
    a = .reset ∨ (∃ b, a = .write r b) ∨
      ∃ cw i, a = .issue cw ∧ decode cw = .ok i ∧ i.wellFormed = true ∧ r ∈ i.destinations ∧ t.faulted = false := by
  cases h with
  | reset => exact .inl rfl
  | write r' b _ _ =>
    by_cases hr : r = r'
    · exact .inr (.inl ⟨b, by rw [hr]⟩)
    · exact absurd (State.readReg_writeReg_other s r' r (limbs b) hr) hne
  | read r' => exact absurd rfl hne
  | status => exact absurd rfl hne
  | ack _ => exact absurd rfl hne
  | issue cw hready heff =>
    cases heff with
    | illegalCommand _ => exact absurd rfl hne
    | divideByZero _ => exact absurd rfl hne
    | completed i hd hw hc =>
      have hmem : r ∈ i.destinations := by_contra fun hr => hne (hc.frame r hr)
      exact .inr (.inr ⟨cw, i, rfl, hd, hw, hmem, (State.faulted_congr hc.status).trans hready⟩)

/-- Settles O52: a constant never reads differently, and a general register only after one of the three events. -/
theorem registersChangeOnlyByTheseEvents : Obligations.RegistersChangeOnlyByTheseEvents := by
  intro s t r h hne
  have hgen : r.isGeneral = true := by
    by_contra hg
    exact hne (State.readReg_constant (Bool.not_eq_true _ ▸ hg) t s)
  obtain ⟨-, rfl⟩ | ⟨a, rest, hp, heff⟩ := step_next h
  · exact absurd rfl hne
  · exact ⟨hgen, a, rest, hp, heff.register_changed hne⟩

end Sys2Proof.Machine
end

section
/-! The invariant of the block (10_state.md rules R34, R35): it holds at reset, every step keeps it, and it fixes what the
fields of STATUS can show. -/

namespace Sys2Proof.Machine

/-- The invariant is a matter of `STATUS`, `FCMD` and the value registers. -/
theorem State.Inv.congr {s t : State} (h : s.Inv) (hst : t.status = s.status) (hfc : t.fcmd = s.fcmd)
    (hr : ∀ r, t.readReg r = s.readReg r) : t.Inv := by
  rw [State.Inv, hst, hfc, State.dividesByZero_congr hr]
  exact h

/-- Under the invariant `STATUS` is made of fields, and names a cause exactly when it shows a fault (R34). -/
theorem State.Inv.status_fields {s : State} (h : s.Inv) :
    ∃ f c, s.status = statusWord f c ∧ (c = .none ↔ f = false) := by
  obtain h | ⟨h, -⟩ | ⟨h, -⟩ := h
  · exact ⟨false, .none, h.trans zero_eq_statusWord, by decide⟩
  · exact ⟨true, .divideByZero, h, by decide⟩
  · exact ⟨true, .illegalCommand, h, by decide⟩

/-- Under the invariant a ready block has `STATUS = 0`. -/
theorem State.Inv.status_of_ready {s : State} (h : s.Inv) (hready : s.faulted = false) : s.status = 0 := by
  obtain h | ⟨h, -⟩ | ⟨h, -⟩ := h
  · exact h
  · simp [State.faulted_of_status h] at hready
  · simp [State.faulted_of_status h] at hready

/-- An issued word keeps the invariant: a fault it takes is shown by `FCMD` and by the registers, which it leaves (R274). -/
theorem WordEffect.keeps_inv {cw : Word64} {s t : State} (h : WordEffect cw s t) (hzero : s.status = 0) : t.Inv := by
  cases h with
  | illegalCommand hl => exact .inr (.inr ⟨rfl, hl⟩)
  | divideByZero hz => exact .inr (.inl ⟨rfl, (State.dividesByZero_congr (fun _ => rfl) cw).trans hz⟩)
  | completed i _ _ hc => exact .inl (hc.status.trans hzero)

/-- Every host action keeps the invariant (R275, R276). -/
theorem ActionEffect.keeps_inv {a : HostAction} {s t : State} (h : ActionEffect s a t) (hinv : s.Inv) : t.Inv := by
  cases h with
  | reset => exact .inl rfl
  | write r b _ hready => exact .inl ((s.writeReg_status r (limbs b)).trans (hinv.status_of_ready hready))
  | read r => exact hinv.congr rfl rfl fun _ => rfl
  | issue cw hready heff => exact heff.keeps_inv (hinv.status_of_ready hready)
  | status => exact hinv.congr rfl rfl fun _ => rfl
  | ack _ => exact .inl rfl

/-- Settles O49: an idle step changes nothing, and every host action keeps the invariant. -/
theorem everyStepKeepsTheInvariant : Obligations.EveryStepKeepsTheInvariant := by
  intro s t hinv h
  obtain ⟨-, rfl⟩ | ⟨a, rest, -, heff⟩ := step_next h
  · exact hinv
  · exact heff.keeps_inv (hinv.congr rfl rfl fun _ => rfl)

/-- Settles O50: under the invariant STATUS is made of fields, whose bits are those of `statusWord`. -/
theorem statusFieldsAgree : Obligations.StatusFieldsAgree := by
  intro s hinv
  obtain ⟨f, c, hst, hcause⟩ := hinv.status_fields
  have hcode : s.causeCode = c.code := by rw [State.causeCode, hst, statusWord_cause]
  refine ⟨by rw [hst, statusWord_upper], ?_, ?_, by rw [State.readStatus, hst, statusWord_readable]⟩
  · rw [hcode, State.faulted_of_status hst, Cause.code_eq_zero_iff, hcause]
  · rw [hcode]
    exact c.code_ne_three

/-- Settles O48: STATUS is 0 after reset. -/
theorem invariantHoldsAtReset : Obligations.InvariantHoldsAtReset := .inl rfl

end Sys2Proof.Machine
end

section
/-! The constants and the state after reset (10_state.md rules R25, R27, R36). -/

namespace Sys2Proof.Machine

/-- Settles O30: the constants are hardwired, and their patterns and signed values are those of the table (R25). -/
theorem constantRegistersReadAsNamed : Obligations.ConstantRegistersReadAsNamed := by
  intro s
  simp only [State.readReg_x0, State.readReg_x1, State.readReg_x2, State.readReg_x3, State.readReg_x4, State.readReg_x5]
  decide

/-- Settles O47: the constants are those of every state, and the control registers are 0. -/
theorem resetStateHoldsTheSpecifiedValues : Obligations.ResetStateHoldsTheSpecifiedValues :=
  ⟨State.readReg_x0 _, State.readReg_x1 _, State.readReg_x2 _, State.readReg_x3 _, State.readReg_x4 _,
    State.readReg_x5 _, by decide⟩

end Sys2Proof.Machine
end

section
/-! When the block takes a host action, and what H_WRITE, H_READ and H_STATUS do to it (20_memory.md rules R52 to R54). -/

namespace Sys2Proof.Machine

/-! ## Every enabled action is taken -/

theorem performIllegal_ready (cw : Word64) {s : State} (h : s.faulted = false) :
    performIllegal cw s = .next (s.faultEntry .illegalCommand cw) :=
  s.whenReady_ready _ h

/-- In a ready block every word is performed to its end, a word that is no command included (R95, R310). -/
theorem performWord_ready (cw : Word64) {s : State} (h : s.faulted = false) : ∃ t, performWord cw s = .next t := by
  cases hd : decode cw with
  | error e => exact ⟨_, (performWord_error hd s).trans (performIllegal_ready cw h)⟩
  | ok i =>
    rw [performWord_ok hd]
    exact exec_ready i s h

/-- A ready block takes a write to a general register (R53). -/
theorem hostWrite_ready {r : RegIdx} {s : State} (b : Word64) (hg : r.isGeneral = true) (hready : s.faulted = false) :
    hostWrite r b s = .next { s.writeReg r (limbs b) with answer := .nothing } := by
  simp [hostWrite, hg, hready]

/-- A write to a constant register is refused in every state (log entry 5). -/
theorem hostWrite_constant {r : RegIdx} (b : Word64) (s : State) (h : r.isGeneral = false) :
    hostWrite r b s = .refused .writeToConstant := by
  simp [hostWrite, h]

theorem hostAck_faulted {s : State} (h : s.faulted = true) : hostAck s = .next s.acknowledge := by
  simp [hostAck, h]

/-- Which actions are enabled is a matter of `STATUS`, not of the actions that follow. -/
@[simp] theorem State.enabled_pending_update (s : State) (x : List HostAction) (a : HostAction) :
    ({ s with pending := x } : State).enabled a = s.enabled a := rfl

theorem State.enabled_write_iff {s : State} {r : RegIdx} {b : Word64} :
    s.enabled (.write r b) = true ↔ r.isGeneral = true ∧ s.faulted = false := by
  simp [State.enabled]

theorem State.enabled_issue_iff {s : State} {cw : Word64} : s.enabled (.issue cw) = true ↔ s.faulted = false := by
  simp [State.enabled]

/-- The block takes every enabled action (R52). -/
theorem hostAction_of_enabled {a : HostAction} {s : State} (h : s.enabled a = true) : ∃ t, hostAction a s = .next t := by
  cases a with
  | reset => exact ⟨_, rfl⟩
  | write r b =>
    obtain ⟨hg, hready⟩ := State.enabled_write_iff.mp h
    exact ⟨_, hostWrite_ready b hg hready⟩
  | read r => exact ⟨_, rfl⟩
  | issue cw => exact performWord_ready cw (State.enabled_issue_iff.mp h)
  | status => exact ⟨_, rfl⟩
  | ack => exact ⟨_, hostAck_faulted h⟩

/-! ## Only enabled actions are taken, and they leave the host's list alone -/

theorem ActionEffect.enabled {a : HostAction} {s t : State} (h : ActionEffect s a t) : s.enabled a = true := by
  cases h with
  | reset => rfl
  | write r b hg hready => exact State.enabled_write_iff.mpr ⟨hg, hready⟩
  | read r => rfl
  | issue cw hready _ => exact State.enabled_issue_iff.mpr hready
  | status => rfl
  | ack hf => exact hf

theorem WordEffect.pending_eq {cw : Word64} {s t : State} (h : WordEffect cw s t) : t.pending = s.pending := by
  cases h with
  | illegalCommand _ => rfl
  | divideByZero _ => rfl
  | completed i _ _ hc => exact hc.pending

theorem ActionEffect.pending_eq {a : HostAction} {s t : State} (h : ActionEffect s a t) : t.pending = s.pending := by
  cases h with
  | reset => rfl
  | write r b _ _ => exact s.writeReg_pending r (limbs b)
  | read r => rfl
  | issue cw _ heff => exact heff.pending_eq
  | status => rfl
  | ack _ => rfl

/-- The block takes an action exactly when it is enabled (R52). -/
theorem hostAction_taken_iff_enabled {a : HostAction} {s : State} :
    (∃ t, hostAction a s = .next t) ↔ s.enabled a = true :=
  ⟨fun ⟨_, h⟩ => (hostAction_next h).enabled, hostAction_of_enabled⟩

/-- Settles O53: a step is the next host action, which is taken exactly when it is enabled. -/
theorem stepIsTakenExactlyWhenEnabled : Obligations.StepIsTakenExactlyWhenEnabled := by
  refine fun s => ⟨step_idle, fun a rest hp => ?_⟩
  rw [step_action hp]
  exact ⟨by rw [hostAction_taken_iff_enabled, State.enabled_pending_update], fun t h => (hostAction_next h).pending_eq⟩

/-! ## H_WRITE -/

/-- Settles O43: in a ready block the write is `writeReg` of the pattern's limbs, and a constant register is refused. -/
theorem hostWriteSetsOneRegister : Obligations.HostWriteSetsOneRegister := by
  intro s r b rest hp
  have hstep : step s = hostWrite r b { s with pending := rest } := step_action hp
  refine ⟨fun hg hready => ?_, fun hc => hstep.trans (hostWrite_constant b _ hc)⟩
  have hsame : (({ s with pending := rest } : State).writeReg r (limbs b)).readReg r = limbs b :=
    State.readReg_writeReg_same _ r _ hg
  refine ⟨_, hstep.trans (hostWrite_ready b hg hready), ?_⟩
  rw [State.readReg_answer_update, hsame]
  exact ⟨rfl, rfl, rfl, bits64_limbs b, fun x hx => State.readReg_writeReg_other _ r x _ hx,
    State.writeReg_status _ r _, State.writeReg_fcmd _ r _, State.writeReg_pending _ r _, State.writeReg_resets _ r _, rfl⟩

/-! ## H_READ and H_STATUS -/

/-- The host reads bits `[2:0]` of `STATUS` as they stand and zero above, whatever is stored there (R34; log entry 7). -/
theorem State.readStatus_getLsbD (s : State) (i : Nat) :
    s.readStatus.getLsbD i = (decide (i < 3) && s.status.getLsbD i) := by
  have happend : s.readStatus.getLsbD i =
      if i < 3 then (s.status.extractLsb' 0 3).getLsbD i else (0 : BitVec 29).getLsbD (i - 3) := BitVec.getLsbD_append
  by_cases h : i < 3 <;> simp [happend, h]

/-- The host reads `STATUS.FAULT` (R34). -/
theorem State.readStatus_fault (s : State) : s.readStatus.getLsbD 0 = s.faulted := s.readStatus_getLsbD 0

/-- The host reads `STATUS.CAUSE` (R34). -/
theorem State.readStatus_cause (s : State) : s.readStatus.extractLsb' 1 2 = s.causeCode := by
  ext i hi
  have hlow : 1 + i < 3 := by omega
  simp [State.causeCode, State.readStatus_getLsbD, hlow]

theorem State.readStatus_upper (s : State) : s.readStatus.extractLsb' 3 29 = 0 := by
  ext i hi
  simp [State.readStatus_getLsbD]

/-- Settles O44: both reads change only the answer, and a status read answers the fields of `STATUS` as the host reads it. -/
theorem hostReadsChangeNothing : Obligations.HostReadsChangeNothing :=
  fun s _ => ⟨fun _ => step_action, fun hp =>
    ⟨s.readStatus, step_action hp, s.readStatus_fault, s.readStatus_cause, s.readStatus_upper⟩⟩

end Sys2Proof.Machine
end

section
/-! Decode and encode agree (30_encoding.md rules R71, R72, R80, R92): a word decodes to a command exactly when its fields
are that command's fields. -/

namespace Sys2Proof

/-- The opcode of a command; the two forms of `divMod` share one (R80). -/
def Instr.opcode : Instr → Opcode
  | .fromInt32 _ _ => .fromInt32
  | .toInt32 _ _ => .toInt32
  | .add _ _ _ => .add
  | .sub _ _ _ => .sub
  | .neg _ _ => .neg
  | .mul _ _ _ => .mul
  | .divModQuotient _ _ _ => .divMod
  | .divModPair _ _ _ _ => .divMod
  | .shl _ _ _ => .shl
  | .shr _ _ _ => .shr
  | .shru _ _ _ => .shru
  | .and _ _ _ => .and
  | .or _ _ _ => .or
  | .xor _ _ _ => .xor
  | .not _ _ => .not
  | .compare _ _ _ => .compare

@[simp] theorem Instr.fields_op (i : Instr) : i.fields.op = i.opcode.code := by cases i <;> rfl

/-- A command's word has zero in every field its format does not use (R72). -/
@[simp] theorem Instr.unusedZero_fields (i : Instr) : i.opcode.format.unusedZero i.fields = true := by cases i <;> rfl

/-- A command is built from its opcode and its own fields: every operand has a field (R71, R73). -/
@[simp] theorem Instr.build_fields (i : Instr) : i.opcode.build i.fields = i := by
  cases i <;> simp [Instr.opcode, Instr.fields, Opcode.build]

/-- A word that passes checks 1 and 2 of R90 is the command its opcode builds. -/
theorem decode_of_checks {cw : Word64} {o : Opcode} (hop : (fieldsOf cw).op = o.code)
    (hz : o.format.unusedZero (fieldsOf cw) = true) : decode cw = .ok (o.build (fieldsOf cw)) := by
  simp [decode, hop, hz]

/-- Settles O2: the fields of the word pass both checks, and the command is built from them again. -/
theorem decodeOfEncodeIsTheCommand : Obligations.DecodeOfEncodeIsTheCommand := by
  intro i
  have h : decode (encode i) = .ok (i.opcode.build (fieldsOf (encode i))) :=
    decode_of_checks (by simp) (by simp)
  rwa [fieldsOf_encode, Instr.build_fields] at h

/-- Settles O3: the unused fields are zero and the others stand in the command (`Opcode.fields_build`), so no bit is lost. -/
theorem encodeOfDecodeIsTheWord : Obligations.EncodeOfDecodeIsTheWord := fun _ _ => encode_of_decode

/-- A word that decodes to a command has the command's fields (R92). -/
theorem fieldsOf_of_decode {cw : Word64} {i : Instr} (h : decode cw = .ok i) : fieldsOf cw = i.fields := by
  rw [← encode_of_decode h, fieldsOf_encode]

end Sys2Proof
end

section
/-! The match and mask table (30_encoding.md rule R81), read field by field: a row's mask covers `op`, `wr` and the unused
fields of the row's format, and its match holds the row's `op` and `wr`. -/

namespace Sys2Proof

/-- The bitwise AND of two words, field by field. -/
def Fields.and (f g : Fields) : Fields :=
  ⟨f.op &&& g.op, f.rd &&& g.rd, f.rr &&& g.rr, f.ra &&& g.ra, f.rb &&& g.rb, f.z &&& g.z, f.wr &&& g.wr, f.imm &&& g.imm⟩

@[simp] theorem fieldsOf_and (a b : Word64) : fieldsOf (a &&& b) = (fieldsOf a).and (fieldsOf b) := by
  simp [fieldsOf, Fields.and, BitVec.extractLsb'_and]

/-- Words are compared field by field (R71). -/
theorem eq_wordOf_iff {cw : Word64} {f : Fields} : cw = wordOf f ↔ fieldsOf cw = f :=
  ⟨fun h => by rw [h, fieldsOf_wordOf], fun h => by rw [← h, wordOf_fieldsOf]⟩

/-- The mask of a row: all ones on `op`, on `wr` and on the fields that must be zero in the format, where `divMod` uses
`rr` only with `wr = 1` (R72, R81). -/
def Format.maskFields (k : Format) (wr : BitVec 1) : Fields :=
  match k with
  | .I => ⟨.allOnes 8, 0, .allOnes 4, .allOnes 4, .allOnes 4, .allOnes 7, .allOnes 1, 0⟩
  | .U => ⟨.allOnes 8, 0, .allOnes 4, 0, .allOnes 4, .allOnes 7, .allOnes 1, .allOnes 32⟩
  | .S => ⟨.allOnes 8, 0, .allOnes 4, 0, .allOnes 4, .allOnes 7, .allOnes 1, 0⟩
  | .R => ⟨.allOnes 8, 0, .allOnes 4, 0, 0, .allOnes 7, .allOnes 1, .allOnes 32⟩
  | .D => ⟨.allOnes 8, 0, bif wr == 1 then 0 else .allOnes 4, 0, 0, .allOnes 7, .allOnes 1, .allOnes 32⟩

/-- The table's rows are a matter of the opcode and the `wr` bit (R81). -/
theorem Instr.row_eq (i : Instr) :
    i.row = (wordOf ⟨i.opcode.code, 0, 0, 0, 0, 0, i.fields.wr, 0⟩, wordOf (i.opcode.format.maskFields i.fields.wr)) := by
  cases i <;>
    simp only [Instr.row, Instr.opcode, Instr.fields, Opcode.code, Opcode.format, Format.maskFields] <;>
    decide

/-- Fields masked for the format `k` and the `wr` bit of a command's fields `g` leave only `g`'s `op` and `wr` exactly when
they hold these two and pass check 2 of R90 for `k`. -/
theorem Format.and_maskFields_eq_iff {k : Format} {f g : Fields} (hg : k.unusedZero g = true) :
    f.and (k.maskFields g.wr) = ⟨g.op, 0, 0, 0, 0, 0, g.wr, 0⟩ ↔
      f.op = g.op ∧ f.wr = g.wr ∧ k.unusedZero f = true := by
  cases k
  case D =>
    obtain hg1 | hg1 := BitVec.eq_zero_or_eq_one g.wr <;>
      obtain hf1 | hf1 := BitVec.eq_zero_or_eq_one f.wr <;>
        simp [Fields.and, Format.maskFields, Format.unusedZero, hg1, hf1, -BitVec.reduceAllOnes]
    tauto
  all_goals
    simp only [Format.unusedZero, Bool.and_eq_true, beq_iff_eq] at hg
    simp [Fields.and, Format.maskFields, Format.unusedZero, hg, -BitVec.reduceAllOnes]
    tauto

/-- A word has a row's match under its mask exactly when it has the row's `op` and `wr` and passes check 2 of R90 for the
row's format (R81). -/
theorem and_mask_eq_match_iff (cw : Word64) (i : Instr) :
    cw &&& i.row.2 = i.row.1 ↔
      (fieldsOf cw).op = i.fields.op ∧ (fieldsOf cw).wr = i.fields.wr ∧
        i.opcode.format.unusedZero (fieldsOf cw) = true := by
  rw [i.row_eq, eq_wordOf_iff, fieldsOf_and, fieldsOf_wordOf, ← i.fields_op,
    Format.and_maskFields_eq_iff i.unusedZero_fields]

@[simp] theorem Opcode.opcode_build (o : Opcode) (f : Fields) : (o.build f).opcode = o := by
  cases o
  case divMod => simp only [Opcode.build]; split <;> rfl
  all_goals rfl

/-- Settles O4: a word with the row's match builds a command of the row's opcode and `wr` bit, and a word has the match of
the command it decodes to. -/
theorem decoderIsMatchUnderMask : Obligations.DecoderIsMatchUnderMask := by
  intro cw i
  constructor
  · intro h
    obtain ⟨hop, hwr, hz⟩ := (and_mask_eq_match_iff cw i).mp h
    have hd : decode cw = .ok (i.opcode.build (fieldsOf cw)) := decode_of_checks (hop.trans i.fields_op) hz
    refine ⟨_, hd, ?_⟩
    rw [Instr.row_eq, Instr.row_eq i, ← fieldsOf_of_decode hd, Opcode.opcode_build, hwr]
  · rintro ⟨j, hd, hrow⟩
    rw [← hrow, and_mask_eq_match_iff, fieldsOf_of_decode hd]
    exact ⟨rfl, rfl, j.unusedZero_fields⟩

end Sys2Proof
end

section
/-! Legal words (30_encoding.md rules R90, R91, R98): the four checks over a word's fields, IllegalCommand for every other
word (R95), and the step that issues a word (20_memory.md rules R52, R62). -/

namespace Sys2Proof

/-! ## Check 1: the opcode numbers -/

theorem decode_of_reserved {cw : Word64} (h : opcodeOf (fieldsOf cw).op = none) : decode cw = .error .reservedOpcode := by
  simp [decode, h]

/-- The opcode numbers are `0x00` and `0x03` to `0x10` (R80). -/
theorem exists_code_iff {b : BitVec 8} :
    (∃ o : Opcode, o.code = b) ↔ b.toNat = 0x00 ∨ (0x03 ≤ b.toNat ∧ b.toNat ≤ 0x10) := by
  constructor
  · rintro ⟨o, rfl⟩
    cases o <;> decide
  · intro hrange
    have hsome : opcodeOf b ≠ none := by
      simp [opcodeOf, Opcode.all, Opcode.code, ← BitVec.toNat_inj]
      omega
    obtain ⟨o, ho⟩ := Option.ne_none_iff_exists'.mp hsome
    exact ⟨o, code_of_opcodeOf ho⟩

/-- Every other opcode number is read as none (R91). -/
theorem opcodeOf_eq_none {b : BitVec 8} (h : ¬(b.toNat = 0x00 ∨ (0x03 ≤ b.toNat ∧ b.toNat ≤ 0x10))) : opcodeOf b = none :=
  Option.eq_none_iff_forall_ne_some.mpr fun _ ho => h (exists_code_iff.mp ⟨_, code_of_opcodeOf ho⟩)

/-! ## Check 2: the unused fields -/

/-- The fields a command does not use are zero, by opcode number instead of by format (R72). -/
theorem Opcode.unusedZero_iff (o : Opcode) (f : Fields) :
    o.format.unusedZero f = true ↔
      f.z = 0 ∧ (o.code.toNat ≠ 0x08 → f.wr = 0) ∧
        (o.code.toNat ≠ 0x00 → o.code.toNat ≠ 0x09 → o.code.toNat ≠ 0x0A → o.code.toNat ≠ 0x0B → f.imm = 0) ∧
        ((o.code.toNat = 0x00 ∨ o.code.toNat = 0x03 ∨ o.code.toNat = 0x06 ∨ o.code.toNat = 0x0F ∨ o.code.toNat = 0x09 ∨
          o.code.toNat = 0x0A ∨ o.code.toNat = 0x0B) → f.rb = 0) ∧
        (o.code.toNat = 0x00 → f.ra = 0) ∧ (¬(o.code.toNat = 0x08 ∧ f.wr = 1) → f.rr = 0) := by
  cases o <;> simp [Opcode.code, Opcode.format, Format.unusedZero] <;> tauto

/-! ## Checks 3 and 4: the destinations -/

@[simp] theorem isGeneral_regOf (b : BitVec 4) : (regOf b).isGeneral = true ↔ 6 ≤ b.toNat :=
  decide_eq_true_iff

@[simp] theorem regOf_inj {a b : BitVec 4} : regOf a = regOf b ↔ a = b := by
  rw [regOf, regOf, Fin.mk.injEq, BitVec.toNat_inj]

/-- The destination checks of the command an opcode builds, over the fields. -/
theorem Opcode.wellFormed_build (o : Opcode) (f : Fields) :
    (o.build f).wellFormed = true ↔
      6 ≤ f.rd.toNat ∧ (o.code.toNat = 0x08 → f.wr = 1 → 6 ≤ f.rr.toNat ∧ f.rr ≠ f.rd) := by
  cases o
  case divMod =>
    obtain hwr | hwr := BitVec.eq_zero_or_eq_one f.wr <;>
      simp [Opcode.build, Opcode.code, Instr.wellFormed, Instr.destinations, hwr]
    tauto
  all_goals simp [Opcode.build, Opcode.code, Instr.wellFormed, Instr.destinations]

/-- What a legal word is: an opcode whose unused fields are zero and which builds a well-formed command (R90). -/
theorem legal_iff {cw : Word64} :
    legal cw = true ↔ ∃ o : Opcode, o.code = (fieldsOf cw).op ∧ o.format.unusedZero (fieldsOf cw) = true ∧
      (o.build (fieldsOf cw)).wellFormed = true := by
  constructor
  · intro h
    cases hd : decode cw with
    | error e => simp [legal_of_decode_error hd] at h
    | ok i =>
      rw [legal_of_decode_ok hd] at h
      obtain ⟨o, ho, hz, rfl⟩ := decode_eq_ok hd
      exact ⟨o, code_of_opcodeOf ho, hz, h⟩
  · rintro ⟨o, hop, hz, hw⟩
    rwa [legal_of_decode_ok (decode_of_checks hop.symm hz)]

end Sys2Proof

namespace Sys2Proof.Machine

/-- An illegal word in a ready block raises IllegalCommand, whichever check it fails (R90, R95). -/
theorem performWord_illegal {cw : Word64} {s : State} (hready : s.faulted = false) (hl : legal cw = false) :
    performWord cw s = .next (s.faultEntry .illegalCommand cw) := by
  cases hd : decode cw with
  | error e => exact (performWord_error hd s).trans (performIllegal_ready cw hready)
  | ok i =>
    rw [legal_of_decode_ok hd] at hl
    obtain ⟨f, hf, -⟩ := exec_shape i
    rw [performWord_ok hd, hf, performCommand_illFormed i f s hready hl, encode_of_decode hd]

theorem performWord_tookFault {cw : Word64} {s : State} (hready : s.faulted = false) (hl : legal cw = false) :
    ∃ t, performWord cw s = .next t ∧ TookFault s t .illegalCommand cw :=
  ⟨_, performWord_illegal hready hl, s.faultEntry_tookFault _ cw⟩

/-- Settles O5: the four checks are `exists_code_iff`, `Opcode.unusedZero_iff` and `Opcode.wellFormed_build`. -/
theorem legalIsTheFourChecks : Obligations.LegalIsTheFourChecks := by
  refine fun cw => ⟨?_, fun s => performWord_tookFault⟩
  rw [legal_iff]
  constructor
  · rintro ⟨o, hop, hz, hw⟩
    rw [Opcode.unusedZero_iff, hop] at hz
    rw [Opcode.wellFormed_build, hop] at hw
    exact ⟨exists_code_iff.mp ⟨o, hop⟩, hz, hw⟩
  · rintro ⟨hcode, hz, hw⟩
    obtain ⟨o, hop⟩ := exists_code_iff.mpr hcode
    refine ⟨o, hop, ?_, ?_⟩
    · rw [Opcode.unusedZero_iff, hop]
      exact hz
    · rw [Opcode.wellFormed_build, hop]
      exact hw

/-- Settles O6: a reserved number is no opcode, so the word does not decode. -/
theorem reservedOpcodesAreIllegal : Obligations.ReservedOpcodesAreIllegal := by
  refine ⟨fun cw s hready hop => ?_, by decide, by decide⟩
  have hnone : opcodeOf (fieldsOf cw).op = none := opcodeOf_eq_none (by bv_omega)
  have hl : legal cw = false := legal_of_decode_error (decode_of_reserved hnone)
  exact ⟨hl, performWord_tookFault hready hl⟩

/-- Settles O1, by running the decoder on the worked words. -/
theorem workedEncodingsDecode : Obligations.WorkedEncodingsDecode := by
  unfold Obligations.WorkedEncodingsDecode
  decide

/-- Settles O7: the step takes the issue off the list and performs the word. -/
theorem stepRunsTheDecodedCommand : Obligations.StepRunsTheDecodedCommand := by
  intro s cw rest hp
  have hstep : step s = performWord cw { s with pending := rest } := step_action hp
  exact ⟨fun i hd => hstep.trans (performWord_ok hd _), fun e hd hready =>
    hstep.trans (performWord_illegal hready (legal_of_decode_error hd))⟩

end Sys2Proof.Machine
end

section
/-! Conversion between values and native integers (40_conversion.md): `fromInt32` is sign extension of the pattern and
`toInt32` is its low half, so every law of R115 is one about 64-bit words. -/

namespace Sys2Proof

/-! ## fromInt32 -/

/-- The limbs of a wrapped integer are its fields by R8's flooring shift and mask (R9). -/
theorem wrap_eq_limbs (n : ℤ) :
    wrap n = ⟨BitVec.ofInt 20 (n / 2 ^ 44), BitVec.ofInt 22 (n / 2 ^ 22), BitVec.ofInt 22 n⟩ := by
  rw [wrap, limbs, Int64Value.mk.injEq]
  simp only [← BitVec.toNat_inj, BitVec.extractLsb'_toNat, BitVec.toNat_ofInt, Nat.shiftRight_eq_div_pow]
  omega

/-- `fromInt32` is the value with that signed value (R110). -/
theorem fromInt32_eq_wrap (i : Native) : fromInt32 i = wrap i.toInt := (wrap_eq_limbs i.toInt).symm

/-- `fromInt32` copies bit 31 into the upper half (R111). -/
@[simp] theorem bits64_fromInt32 (i : Native) : (fromInt32 i).bits64 = i.signExtend 64 := by
  rw [fromInt32_eq_wrap, bits64_wrap, BitVec.signExtend]

theorem fromInt32_eq_limbs (i : Native) : fromInt32 i = limbs (i.signExtend 64) := by
  rw [← bits64_fromInt32, limbs_bits64]

/-- `fromInt32` keeps the signed value (R110). -/
@[simp] theorem sval_fromInt32 (i : Native) : (fromInt32 i).sval = i.toInt := by
  rw [Int64Value.sval_eq_toInt, bits64_fromInt32, BitVec.toInt_signExtend_of_le (by decide)]

theorem fromInt32_injective : Function.Injective fromInt32 := fun i j h =>
  BitVec.toInt_inj.mp (by rw [← sval_fromInt32 i, h, sval_fromInt32])

/-- The limbs of `fromInt32` as numbers: the fields of the signed value (R110). -/
theorem toNat_limbs_fromInt32 (i : Native) :
    ((fromInt32 i).low.toNat : ℤ) = i.toInt % 2 ^ 22 ∧ ((fromInt32 i).mid.toNat : ℤ) = i.toInt / 2 ^ 22 % 2 ^ 22 ∧
      ((fromInt32 i).high.toNat : ℤ) = i.toInt / 2 ^ 44 % 2 ^ 20 := by
  simp only [fromInt32, BitVec.toNat_ofInt]
  omega

/-! ## toInt32 -/

/-- `toInt32` as a number: `low` and the ten low bits of `mid` (R112). -/
theorem toNat_toInt32 (v : Int64Value) : (toInt32 v).toNat = (v.low.toNat + v.mid.toNat * 2 ^ 22) % 2 ^ 32 := by
  rw [toInt32, BitVec.toNat_ofNat, Nat.or_comm, ← Nat.shiftLeft_add_eq_or_of_lt v.low.isLt, Nat.shiftLeft_eq,
    Nat.add_comm]

/-- `toInt32` is the low half of the pattern (R112). -/
theorem toInt32_eq_extract (v : Int64Value) : toInt32 v = v.bits64.extractLsb' 0 32 := by
  apply BitVec.eq_of_toNat_eq
  rw [toNat_toInt32, BitVec.extractLsb'_toNat, Nat.shiftRight_zero, v.bits64_toNat]
  omega

/-! ## Round trips -/

/-- The round trip from a native integer is exact: sign extension keeps the low half (R115). -/
@[simp] theorem toInt32_fromInt32 (i : Native) : toInt32 (fromInt32 i) = i := by
  rw [toInt32_eq_extract, bits64_fromInt32, BitVec.signExtend_eq_append_of_le (by decide), BitVec.extractLsb'_cast,
    BitVec.extractLsb'_append_eq_right]

/-- The values that `fromInt32` reaches are those in the native range (R110). -/
theorem exists_fromInt32_eq_iff {v : Int64Value} :
    (∃ i, fromInt32 i = v) ↔ -2 ^ 31 ≤ v.sval ∧ v.sval ≤ 2 ^ 31 - 1 := by
  constructor
  · rintro ⟨i, rfl⟩
    rw [sval_fromInt32]
    exact ⟨i.le_toInt, Int.le_sub_one_of_lt i.toInt_lt⟩
  · rintro ⟨hlo, hhi⟩
    have hval : (BitVec.ofInt 32 v.sval).toInt = v.sval :=
      BitVec.toInt_ofInt_eq_self (by decide) hlo (Int.lt_of_le_sub_one hhi)
    exact ⟨BitVec.ofInt 32 v.sval, by rw [fromInt32_eq_wrap, hval, wrap_sval]⟩

/-- The round trip from a value is exact for the values that `fromInt32` reaches (R115). -/
theorem fromInt32_toInt32_eq_iff {v : Int64Value} : fromInt32 (toInt32 v) = v ↔ ∃ i, fromInt32 i = v := by
  constructor
  · exact fun h => ⟨_, h⟩
  · rintro ⟨i, rfl⟩
    rw [toInt32_fromInt32]

/-- The round trip from a value keeps the low half (R115). -/
theorem extract_bits64_fromInt32_toInt32 (v : Int64Value) :
    (fromInt32 (toInt32 v)).bits64.extractLsb' 0 32 = v.bits64.extractLsb' 0 32 := by
  rw [← toInt32_eq_extract, toInt32_fromInt32, toInt32_eq_extract]

/-- Settles O33: `fromInt32` is sign extension and `toInt32` the low half, which sign extension keeps. -/
theorem conversionsRoundTrip : Obligations.ConversionsRoundTrip := by
  refine ⟨fun i => ?_, fun _ _ h => fromInt32_injective h, fun v => ?_⟩
  · obtain ⟨hlow, hmid, hhigh⟩ := toNat_limbs_fromInt32 i
    exact ⟨hlow, hmid, hhigh, sval_fromInt32 i, fromInt32_eq_wrap i, toInt32_fromInt32 i⟩
  · exact ⟨toNat_toInt32 v, toInt32_eq_extract v, fromInt32_toInt32_eq_iff.trans exists_fromInt32_eq_iff,
      extract_bits64_fromInt32_toInt32 v⟩

end Sys2Proof

namespace Sys2Proof.Machine

/-! ## The commands -/

/-- A command with the one general destination `rd` and the result `result s` completes in a ready block, and writes
that result and nothing else (R29, R95). -/
theorem performCommand_wroteOnly {i : Instr} {rd : RegIdx} {s : State} (result : State → Int64Value)
    (hd : i.destinations = [rd]) (hready : s.faulted = false) (hg : rd.isGeneral = true) :
    ∃ t, performCommand i (fun s => s.complete rd (result s)) s = .next t ∧ WroteOnly s t rd (result s) := by
  have hw : i.wellFormed = true := by simp [Instr.wellFormed, hd, hg]
  exact ⟨_, performCommand_wellFormed i _ s hready hw, s.complete_wroteOnly rd (result s) hg⟩

/-- Settles O8: the result of `fromInt32` is sign extension (`fromInt32_eq_limbs`). -/
theorem fromInt32WritesSignExtension : Obligations.FromInt32WritesSignExtension := by
  intro s rd imm hready hg
  rw [exec_fromInt32, ← fromInt32_eq_limbs]
  exact performCommand_wroteOnly (fun _ => fromInt32 imm) rfl hready hg

/-- Settles O9: the result of `toInt32` is sign extension of the low half (`toInt32_eq_extract`). -/
theorem toInt32WritesTruncation : Obligations.ToInt32WritesTruncation := by
  intro s rd ra hready hg
  rw [exec_toInt32, ← toInt32_eq_extract, ← fromInt32_eq_limbs]
  exact performCommand_wroteOnly (fun s => fromInt32 (toInt32 (s.readReg ra))) rfl hready hg

end Sys2Proof.Machine
end

section
/-! The bitwise commands and the shifts (41_bitwise_shift.md): each operation on the limbs is the operation of the same
name on the 64-bit pattern, so the laws of R125 and R137 are laws of 64-bit words. -/

namespace Sys2Proof

/-! ## Bitwise operations (R120, R125) -/

@[simp] theorem Int64Value.bits64_and (a b : Int64Value) : (a.and b).bits64 = a.bits64 &&& b.bits64 :=
  (BitVec.and_append.trans (congrArg (· ++ (a.low &&& b.low)) BitVec.and_append)).symm

@[simp] theorem Int64Value.bits64_or (a b : Int64Value) : (a.or b).bits64 = a.bits64 ||| b.bits64 :=
  (BitVec.or_append.trans (congrArg (· ++ (a.low ||| b.low)) BitVec.or_append)).symm

@[simp] theorem Int64Value.bits64_xor (a b : Int64Value) : (a.xor b).bits64 = a.bits64 ^^^ b.bits64 :=
  (BitVec.xor_append.trans (congrArg (· ++ (a.low ^^^ b.low)) BitVec.xor_append)).symm

@[simp] theorem Int64Value.bits64_not (a : Int64Value) : a.not.bits64 = ~~~a.bits64 :=
  (BitVec.not_append.trans (congrArg (· ++ ~~~a.low) BitVec.not_append)).symm

@[simp] theorem Int64Value.bits64_zero : Int64Value.zero.bits64 = 0 := by decide

@[simp] theorem Int64Value.bits64_negOne : Int64Value.negOne.bits64 = BitVec.allOnes 64 := by decide

/-- The complement has no exception at `MIN_VALUE` (R124). -/
@[simp] theorem Int64Value.sval_not (a : Int64Value) : a.not.sval = -a.sval - 1 := by
  rw [a.not.sval_eq_toInt, a.sval_eq_toInt, a.bits64_not, BitVec.toInt_eq_toNat_cond, BitVec.toInt_eq_toNat_cond,
    BitVec.toNat_not]
  omega

/-- Settles O34: the laws are those of 64-bit words (`bits64_and`, `bits64_or`, `bits64_xor`, `bits64_not`). -/
theorem bitwiseLaws : Obligations.BitwiseLaws := by
  intro a b c
  simp only [Int64Value.eq_iff_bits64, Int64Value.bits64_and, Int64Value.bits64_or, Int64Value.bits64_xor,
    Int64Value.bits64_not, Int64Value.bits64_zero, Int64Value.bits64_negOne]
  exact ⟨BitVec.and_comm _ _, BitVec.and_assoc _ _ _, BitVec.or_comm _ _, BitVec.or_assoc _ _ _, BitVec.xor_comm _ _,
    BitVec.xor_assoc _ _ _, BitVec.or_zero, BitVec.and_allOnes, BitVec.xor_self, BitVec.xor_allOnes.symm, BitVec.not_and⟩

/-! ## The shift count (R130) -/

theorem shiftCount_eq_mod (n : Native) : shiftCount n = n.toNat % 64 := by
  rw [shiftCount, BitVec.toInt_eq_toNat_cond]
  omega

theorem shiftCount_eq_and (n : Native) : shiftCount n = (n &&& 63).toNat := by
  rw [shiftCount_eq_mod, BitVec.toNat_and]
  exact (Nat.and_two_pow_sub_one_eq_mod n.toNat 6).symm

theorem shiftCount_lt (n : Native) : shiftCount n < 64 := by
  rw [shiftCount_eq_mod]
  exact Nat.mod_lt _ (by decide)

theorem shiftCount_of_le {n : Native} (h : n.toNat ≤ 63) : shiftCount n = n.toNat := by
  rw [shiftCount_eq_mod]
  exact Nat.mod_eq_of_lt (Nat.lt_succ_of_le h)

/-- Settles O32: `2^32` is a multiple of 64, so the signed and the unsigned count have one residue
(`shiftCount_eq_mod`). -/
theorem shiftCountIsLowSixBits : Obligations.ShiftCountIsLowSixBits := by
  refine ⟨fun n => ⟨?_, ?_, shiftCount_lt n⟩, by decide⟩
  · exact Int.toNat_of_nonneg (Int.emod_nonneg _ (by decide))
  · rw [shiftCount_eq_mod, BitVec.extractLsb'_toNat, Nat.shiftRight_zero]

/-! ## Bits of the limbs of a shift

In `shr` the limb `high` is read as a signed number, so under a mask it supplies its sign beyond its own width. -/

/-- A bit of the pattern is a bit of the limb at its position (R22). -/
theorem Int64Value.getLsbD_bits64 (v : Int64Value) (i : ℕ) :
    v.bits64.getLsbD i =
      if i < 22 then v.low.getLsbD i else if i < 44 then v.mid.getLsbD (i - 22) else v.high.getLsbD (i - 44) := by
  simp only [Int64Value.bits64, BitVec.getLsbD_append, Nat.sub_sub]
  grind

/-- Masking a signed number takes its sign beyond its width, and a power of two moves it up. -/
theorem ofInt_toInt_mul_two_pow {w : ℕ} (n : ℕ) (y : BitVec w) (k : ℕ) :
    BitVec.ofInt n (y.toInt * 2 ^ k) = y.signExtend n <<< k := by
  have hpow : BitVec.ofInt n (2 ^ k) = BitVec.twoPow n k := by
    apply BitVec.eq_of_toNat_eq
    rw [← Nat.cast_ofNat, ← Nat.cast_pow, BitVec.ofInt_natCast, BitVec.toNat_ofNat, BitVec.toNat_twoPow]
  rw [BitVec.ofInt_mul, hpow, BitVec.shiftLeft_eq_mul_twoPow, BitVec.signExtend]

/-- Two limbs joined by `p | (q << k)` with a signed `q`, where no set bits overlap (R8, R133). -/
theorem getLsbD_signedJoin {u w : ℕ} (n : ℕ) (x : BitVec u) (y : BitVec w) {s k : ℕ} (hu : u = s + k) (i : ℕ) :
    (BitVec.ofInt n ((x.toNat >>> s : ℕ) + y.toInt * 2 ^ k)).getLsbD i =
      (decide (i < n) &&
        (x.getLsbD (s + i) || (decide (k ≤ i) && if i - k < w then y.getLsbD (i - k) else y.msb))) := by
  have hdisjoint : BitVec.ofNat n (x.toNat >>> s) &&& y.signExtend n <<< k = 0 := by
    apply BitVec.eq_of_getLsbD_eq
    intro j _
    by_cases hjk : j < k
    · simp [hjk]
    · simp [BitVec.getLsbD_ofNat, BitVec.testBit_toNat, BitVec.getLsbD_of_ge x (s + j) (by omega)]
  rw [BitVec.ofInt_add, BitVec.ofInt_natCast, ofInt_toInt_mul_two_pow, BitVec.add_eq_or_of_and_eq_zero _ _ hdisjoint,
    BitVec.getLsbD_or, BitVec.getLsbD_ofNat, Nat.testBit_shiftRight, BitVec.testBit_toNat, BitVec.getLsbD_shiftLeft,
    BitVec.getLsbD_signExtend]
  grind

/-- `hs >> s` under a mask: the sign enters from above (R133). -/
theorem getLsbD_ofInt_toInt_ediv {w n : ℕ} (x : BitVec w) (s i : ℕ) (h : w ≤ n) :
    (BitVec.ofInt n (x.toInt / 2 ^ s)).getLsbD i =
      (decide (i < n) && if s + i < w then x.getLsbD (s + i) else x.msb) := by
  have heq : BitVec.ofInt n (x.toInt / 2 ^ s) = (x.signExtend n).sshiftRight s := by
    rw [BitVec.sshiftRight_eq, BitVec.toInt_signExtend_of_le h, Int.shiftRight_eq_div_pow, Nat.cast_pow, Nat.cast_ofNat]
  rw [heq, BitVec.getLsbD_sshiftRight, BitVec.getLsbD_signExtend, BitVec.msb_signExtend]
  grind

theorem getLsbD_fill (neg : Bool) (n i : ℕ) :
    (if neg = true then BitVec.allOnes n else 0).getLsbD i = (decide (i < n) && neg) := by
  cases neg <;> simp

/-! ## Patterns of the shifts

In each of the three cases of the limb form, a bit of the result is traced to the limb it comes from, which is the one
that holds that bit of the pattern. -/

/-- The limb form of `shl` moves the pattern up (R131). -/
theorem Int64Value.bits64_shlBy (v : Int64Value) (s : ℕ) : (v.shlBy s).bits64 = v.bits64 <<< s := by
  apply BitVec.eq_of_getLsbD_eq
  intro i hi
  rw [BitVec.getLsbD_shiftLeft, Int64Value.getLsbD_bits64, Int64Value.getLsbD_bits64]
  fun_cases Int64Value.shlBy v s
  all_goals
    simp only [BitVec.getLsbD_ofNat, Nat.testBit_or, Nat.testBit_shiftLeft, Nat.testBit_shiftRight, BitVec.testBit_toNat]
    grind

/-- The limb form of `shru` moves the pattern down (R135). -/
theorem Int64Value.bits64_shruBy (v : Int64Value) (s : ℕ) : (v.shruBy s).bits64 = v.bits64 >>> s := by
  apply BitVec.eq_of_getLsbD_eq
  intro i hi
  rw [BitVec.getLsbD_ushiftRight, Int64Value.getLsbD_bits64, Int64Value.getLsbD_bits64]
  fun_cases Int64Value.shruBy v s
  all_goals
    simp only [BitVec.getLsbD_ofNat, Nat.testBit_or, Nat.testBit_shiftLeft, Nat.testBit_shiftRight, BitVec.testBit_toNat]
    grind

/-- The limb form of `shr` moves the pattern down, its sign entering from above (R133). -/
theorem Int64Value.bits64_shrBy (v : Int64Value) (s : ℕ) : (v.shrBy s).bits64 = v.bits64.sshiftRight s := by
  have hfillH : (0xFFFFF : BitVec 20) = BitVec.allOnes 20 := by decide
  have hfillM : (0x3FFFFF : BitVec 22) = BitVec.allOnes 22 := by decide
  have hmsb : v.bits64.msb = v.high.msb := v.isNegative_eq_msb_bits64.symm.trans v.isNegative_eq_msb_high
  have hdiv20 (t i : ℕ) := getLsbD_ofInt_toInt_ediv v.high t i (Nat.le_refl 20)
  have hdiv22 (t i : ℕ) := getLsbD_ofInt_toInt_ediv v.high t i (show 20 ≤ 22 by decide)
  apply BitVec.eq_of_getLsbD_eq
  intro i hi
  rw [BitVec.getLsbD_sshiftRight, hmsb, Int64Value.getLsbD_bits64, Int64Value.getLsbD_bits64]
  fun_cases Int64Value.shrBy v s
  case case1 hs h =>
    simp only [hs, hdiv20, BitVec.getLsbD_ofNat, Nat.testBit_or, Nat.testBit_shiftLeft, Nat.testBit_shiftRight,
      BitVec.testBit_toNat, getLsbD_signedJoin 22 v.mid v.high (show 22 = s + (22 - s) by omega)]
    grind
  case case2 hs h h' =>
    simp only [hs, hfillH, getLsbD_fill, v.isNegative_eq_msb_high, hdiv22,
      getLsbD_signedJoin 22 v.mid v.high (show 22 = s - 22 + (44 - s) by omega)]
    grind
  case case3 hs h h' =>
    simp only [hs, hfillH, hfillM, getLsbD_fill, v.isNegative_eq_msb_high, hdiv22]
    grind

@[simp] theorem Int64Value.bits64_shl (v : Int64Value) (n : Native) : (v.shl n).bits64 = v.bits64 <<< shiftCount n :=
  v.bits64_shlBy (shiftCount n)

@[simp] theorem Int64Value.bits64_shr (v : Int64Value) (n : Native) :
    (v.shr n).bits64 = v.bits64.sshiftRight (shiftCount n) :=
  v.bits64_shrBy (shiftCount n)

@[simp] theorem Int64Value.bits64_shru (v : Int64Value) (n : Native) : (v.shru n).bits64 = v.bits64 >>> shiftCount n :=
  v.bits64_shruBy (shiftCount n)

/-- `shr` is division by a power of two, rounded toward minus infinity (R133). -/
theorem Int64Value.shr_eq_wrap (v : Int64Value) (n : Native) : v.shr n = wrap (v.sval / 2 ^ shiftCount n) := by
  rw [Int64Value.eq_iff_bits64, v.bits64_shr, bits64_wrap, v.sval_eq_toInt, BitVec.sshiftRight_eq,
    Int.shiftRight_eq_div_pow, Nat.cast_pow, Nat.cast_ofNat]

/-! ## Laws of the shifts (R137) -/

/-- The result of a shift depends on the count through its low six bits only (R137). -/
theorem Int64Value.shift_congr (v : Int64Value) {n m : Native} (h : n &&& 63 = m &&& 63) :
    v.shl n = v.shl m ∧ v.shr n = v.shr m ∧ v.shru n = v.shru m := by
  have hcount : shiftCount n = shiftCount m := by rw [shiftCount_eq_and, h, shiftCount_eq_and]
  exact ⟨congrArg v.shlBy hcount, congrArg v.shrBy hcount, congrArg v.shruBy hcount⟩

theorem Int64Value.shl_of_count_zero (v : Int64Value) {n : Native} (h : shiftCount n = 0) : v.shl n = v := by
  rw [Int64Value.eq_iff_bits64, v.bits64_shl, h, BitVec.shiftLeft_zero]

theorem Int64Value.shr_zero (v : Int64Value) : v.shr 0 = v := by
  rw [Int64Value.eq_iff_bits64, v.bits64_shr]
  exact BitVec.sshiftRight_zero

theorem Int64Value.shru_zero (v : Int64Value) : v.shru 0 = v := by
  rw [Int64Value.eq_iff_bits64, v.bits64_shru]
  exact BitVec.ushiftRight_zero _

/-- Shifts do not add across the mask: two by 32 clear the value (R137). -/
theorem Int64Value.shl_shl_32 (v : Int64Value) : (v.shl 32).shl 32 = .zero := by
  rw [Int64Value.eq_iff_bits64, bits64_shl, bits64_shl, ← BitVec.shiftLeft_add, bits64_zero]
  exact BitVec.shiftLeft_eq_zero (by decide)

theorem shiftLeft_ushiftRight_eq_and {w : ℕ} (x : BitVec w) (s : ℕ) : x <<< s >>> s = x &&& BitVec.allOnes w >>> s := by
  ext i hi
  simp [BitVec.getLsbD_eq_getElem hi, Bool.and_comm]

/-- The arithmetic and the logical shift down differ exactly in the bits that enter, for a set sign (R137). -/
theorem sshiftRight_xor_ushiftRight {w : ℕ} (x : BitVec w) {s : ℕ} (h : s ≤ w) :
    x.sshiftRight s ^^^ x >>> s = if x.msb then BitVec.allOnes w <<< (w - s) else 0 := by
  cases hx : x.msb with
  | false => simp [BitVec.sshiftRight_eq_of_msb_false hx]
  | true =>
    apply BitVec.eq_of_getLsbD_eq
    intro i hi
    rw [BitVec.getLsbD_xor, BitVec.getLsbD_sshiftRight, BitVec.getLsbD_ushiftRight, if_pos rfl, BitVec.getLsbD_shiftLeft,
      BitVec.getLsbD_allOnes, hx]
    grind

/-- Settles O35: the shifts of a value are those of its pattern by `shiftCount` (`bits64_shl`, `bits64_shr`,
`bits64_shru`). -/
theorem shiftLaws : Obligations.ShiftLaws := by
  refine ⟨fun v n m => v.shift_congr, fun v => ?_, fun v s hs => ?_⟩
  · exact ⟨v.shl_of_count_zero (by decide), v.shr_zero, v.shru_zero, v.shl_shl_32, v.shl_of_count_zero (by decide)⟩
  · simp only [Int64Value.bits64_shl, Int64Value.bits64_shr, Int64Value.bits64_shru, shiftCount_of_le hs,
      v.isNegative_eq_msb_bits64]
    exact ⟨shiftLeft_ushiftRight_eq_and _ _, BitVec.shiftLeft_ushiftRight, sshiftRight_xor_ushiftRight _ (by omega)⟩

end Sys2Proof

namespace Sys2Proof.Machine

/-! ## The commands -/

/-- Settles O16: the result of `shl` has the shifted pattern (`bits64_shl`). -/
theorem shlWritesShiftedPattern : Obligations.ShlWritesShiftedPattern := by
  intro s rd ra n hready hg
  rw [exec_shl, ← shiftCount_eq_mod, ← Int64Value.bits64_shl, limbs_bits64]
  exact performCommand_wroteOnly (fun s => (s.readReg ra).shl n) rfl hready hg

/-- Settles O17: the result of `shr` is the floored quotient (`shr_eq_wrap`). -/
theorem shrWritesFlooredQuotient : Obligations.ShrWritesFlooredQuotient := by
  intro s rd ra n hready hg
  rw [exec_shr, ← shiftCount_eq_mod, ← Int64Value.shr_eq_wrap]
  exact performCommand_wroteOnly (fun s => (s.readReg ra).shr n) rfl hready hg

/-- Settles O18: the result of `shru` has the shifted pattern (`bits64_shru`). -/
theorem shruWritesShiftedPattern : Obligations.ShruWritesShiftedPattern := by
  intro s rd ra n hready hg
  rw [exec_shru, ← shiftCount_eq_mod, ← Int64Value.bits64_shru, limbs_bits64]
  exact performCommand_wroteOnly (fun s => (s.readReg ra).shru n) rfl hready hg

/-- Settles O19: the result of `and` has the conjunction as its pattern (`bits64_and`). -/
theorem andWritesPatternAnd : Obligations.AndWritesPatternAnd := by
  intro s rd ra rb hready hg
  rw [exec_and, ← Int64Value.bits64_and, limbs_bits64]
  exact performCommand_wroteOnly (fun s => (s.readReg ra).and (s.readReg rb)) rfl hready hg

/-- Settles O20: the result of `or` has the disjunction as its pattern (`bits64_or`). -/
theorem orWritesPatternOr : Obligations.OrWritesPatternOr := by
  intro s rd ra rb hready hg
  rw [exec_or, ← Int64Value.bits64_or, limbs_bits64]
  exact performCommand_wroteOnly (fun s => (s.readReg ra).or (s.readReg rb)) rfl hready hg

/-- Settles O21: the result of `xor` has the exclusive or as its pattern (`bits64_xor`). -/
theorem xorWritesPatternXor : Obligations.XorWritesPatternXor := by
  intro s rd ra rb hready hg
  rw [exec_xor, ← Int64Value.bits64_xor, limbs_bits64]
  exact performCommand_wroteOnly (fun s => (s.readReg ra).xor (s.readReg rb)) rfl hready hg

/-- Settles O22: the result of `not` has the complement as its pattern (`bits64_not`), and `sval_not` gives its signed
value. -/
theorem notWritesPatternComplement : Obligations.NotWritesPatternComplement := by
  intro s rd ra hready hg
  rw [exec_not, ← Int64Value.bits64_not, limbs_bits64]
  obtain ⟨t, hnext, hwrote⟩ := performCommand_wroteOnly (i := .not rd ra) (fun s => (s.readReg ra).not) rfl hready hg
  exact ⟨t, hnext, hwrote, by rw [hwrote.1, Int64Value.sval_not]⟩

end Sys2Proof.Machine
end

section
/-! Addition, subtraction, negation and comparison (42_add_sub_neg_compare.md): with carry and borrow folded in, the limb
operations are those of 64-bit words, and `compare` is the sign of the exact difference of the signed values, so the laws
of R156 and R164 are those of words and of integers. -/

namespace Sys2Proof

/-! ## Patterns of add, sub and neg (R150, R152, R154) -/

/-- The carry out of a limb is the part of the sum that leaves it, so the limbs form the sum of the patterns (R150). -/
@[simp] theorem Int64Value.bits64_add (a b : Int64Value) : (a.add b).bits64 = a.bits64 + b.bits64 := by
  apply BitVec.eq_of_toNat_eq
  rw [BitVec.toNat_add, a.bits64_toNat, b.bits64_toNat, (a.add b).bits64_toNat]
  simp only [Int64Value.add, BitVec.toNat_ofNat]
  omega

/-- The borrow is the flooring shift of a limb's difference, so the limbs form the difference of the patterns (R152). -/
@[simp] theorem Int64Value.bits64_sub (a b : Int64Value) : (a.sub b).bits64 = a.bits64 - b.bits64 := by
  apply BitVec.eq_of_toNat_eq
  rw [BitVec.toNat_sub, a.bits64_toNat, b.bits64_toNat, (a.sub b).bits64_toNat]
  simp only [Int64Value.sub, BitVec.toNat_ofInt]
  omega

/-- Complement plus one, limb by limb, is the negated pattern (R154). -/
@[simp] theorem Int64Value.bits64_neg (a : Int64Value) : a.neg.bits64 = -a.bits64 := by
  apply BitVec.eq_of_toNat_eq
  rw [BitVec.toNat_neg, a.bits64_toNat, a.neg.bits64_toNat]
  simp only [Int64Value.neg, BitVec.toNat_ofNat, BitVec.toNat_not]
  omega

/-! ## Signed values of add, sub and neg -/

theorem Int64Value.add_eq_wrap (a b : Int64Value) : a.add b = wrap (a.sval + b.sval) := by
  rw [Int64Value.eq_iff_bits64, bits64_add, bits64_wrap, BitVec.ofInt_add, a.sval_eq_toInt, b.sval_eq_toInt,
    BitVec.ofInt_toInt, BitVec.ofInt_toInt]

theorem Int64Value.sub_eq_wrap (a b : Int64Value) : a.sub b = wrap (a.sval - b.sval) := by
  rw [Int64Value.eq_iff_bits64, bits64_sub, bits64_wrap, Int.sub_eq_add_neg, BitVec.ofInt_add, BitVec.ofInt_neg,
    a.sval_eq_toInt, b.sval_eq_toInt, BitVec.ofInt_toInt, BitVec.ofInt_toInt, BitVec.sub_eq_add_neg]

theorem Int64Value.neg_eq_wrap (a : Int64Value) : a.neg = wrap (-a.sval) := by
  rw [Int64Value.eq_iff_bits64, bits64_neg, bits64_wrap, BitVec.ofInt_neg, a.sval_eq_toInt, BitVec.ofInt_toInt]

/-- Settles O36: the laws are those of 64-bit words (`bits64_add`, `bits64_sub`, `bits64_neg`). -/
theorem addSubNegLaws : Obligations.AddSubNegLaws := by
  intro a b c
  simp only [Int64Value.eq_iff_bits64, Int64Value.bits64_add, Int64Value.bits64_sub, Int64Value.bits64_neg,
    Int64Value.bits64_zero]
  exact ⟨BitVec.add_comm _ _, BitVec.add_assoc _ _ _, BitVec.add_zero _, BitVec.sub_eq_add_neg _ _,
    BitVec.add_right_neg _⟩

/-! ## The signed order (R161 to R164) -/

theorem Int64Value.sval_inj {a b : Int64Value} : a.sval = b.sval ↔ a = b := by
  rw [a.sval_eq_toInt, b.sval_eq_toInt, BitVec.toInt_inj, Int64Value.eq_iff_bits64]

/-- Two values are `equal` when they are the same value (R160). -/
theorem Int64Value.equal_iff {a b : Int64Value} : a.equal b = true ↔ a = b := by
  simp [Int64Value.equal, Int64Value.eq_iff_limbs, and_assoc]

/-- The signed values of two values of one sign differ as their patterns do, so they are ordered as their patterns. -/
theorem Int64Value.sval_sub_of_isNegative_eq {a b : Int64Value} (h : a.isNegative = b.isNegative) :
    a.sval - b.sval = (a.bits64.toNat : ℤ) - b.bits64.toNat := by
  rw [Int64Value.sval, Int64Value.sval, h]
  split <;> omega

/-- `compare` is the sign of the exact difference of the signed values: a difference of signs decides, and between
values of one sign the first limb from the top that differs (R161). -/
theorem Int64Value.compare_eq_sign (a b : Int64Value) : a.compare b = (a.sval - b.sval).sign := by
  have hna := a.isNegative_iff_sval_neg
  have hnb := b.isNegative_iff_sval_neg
  fun_cases Int64Value.compare a b
  case case1 heq => rw [Int64Value.equal_iff.mp heq, Int.sub_self, Int.sign_zero]
  case case2 _ hsign hneg =>
    have ha : a.sval < 0 := hna.mp hneg
    have hb : ¬b.sval < 0 := fun hb => hsign (hneg.trans (hnb.mpr hb).symm)
    exact (Int.sign_eq_neg_one_of_neg (by omega)).symm
  case case3 _ hsign hneg =>
    have ha : ¬a.sval < 0 := mt hna.mpr hneg
    have hb : b.sval < 0 := hnb.mp (by simpa [hneg] using hsign)
    exact (Int.sign_eq_one_of_pos (by omega)).symm
  all_goals
    have hsign : a.isNegative = b.isNegative := not_not.mp ‹_›
    have hne : ¬(a.low = b.low ∧ a.mid = b.mid ∧ a.high = b.high) := by rwa [← eq_iff_limbs, ← equal_iff]
    rw [sval_sub_of_isNegative_eq hsign, a.bits64_toNat, b.bits64_toNat, eq_comm]
    simp only [Int.sign_eq_one_iff_pos, Int.sign_eq_neg_one_iff_neg, ne_eq, ← BitVec.toNat_inj] at *
    omega

/-- `compare` is not negative exactly in the signed order (R162). -/
theorem Int64Value.compare_nonneg_iff {a b : Int64Value} : 0 ≤ a.compare b ↔ b.sval ≤ a.sval := by
  rw [a.compare_eq_sign, Int.sign_nonneg_iff, Int.sub_nonneg]

theorem Int64Value.compare_nonpos_iff {a b : Int64Value} : a.compare b ≤ 0 ↔ a.sval ≤ b.sval := by
  rw [a.compare_eq_sign, Int.sign_nonpos_iff, sub_nonpos]

theorem Int64Value.compare_eq_zero_iff {a b : Int64Value} : a.compare b = 0 ↔ a = b := by
  rw [a.compare_eq_sign, Int.sign_eq_zero_iff_zero, Int.sub_eq_zero, Int64Value.sval_inj]

theorem Int64Value.compare_antisymm (a b : Int64Value) : a.compare b = -b.compare a := by
  rw [a.compare_eq_sign, b.compare_eq_sign, ← Int.sign_neg, Int.neg_sub]

/-- Settles O37: `compare` is the sign of the exact difference of the signed values (`compare_eq_sign`). -/
theorem compareLaws : Obligations.CompareLaws := by
  refine ⟨fun a b c => ?_, by decide, by decide⟩
  simp only [Int64Value.compare_nonpos_iff, Int64Value.compare_nonneg_iff]
  have hmin : Int64Value.minValue.sval = -2 ^ 63 := by decide
  have hmax : Int64Value.maxValue.sval = 2 ^ 63 - 1 := by decide
  refine ⟨a.compare_antisymm b, Int64Value.compare_eq_zero_iff.trans Int64Value.eq_iff_bits64, Int.le_total _ _,
    Int.le_trans, ?_, ?_⟩
  · exact hmin.trans_le a.le_sval
  · exact hmax ▸ Int.le_sub_one_of_lt a.sval_lt

/-- Settles O59: `compare` is the signed order (`compare_nonneg_iff`), which without signs is that of the patterns. -/
theorem gteIsTheSignedOrder : Obligations.GteIsTheSignedOrder := by
  intro a b
  have hgte : a.gte b = true ↔ b.sval ≤ a.sval := (a.gte_eq_true b).trans Int64Value.compare_nonneg_iff
  refine ⟨a.gte_eq_true b, hgte, fun ha hb => ?_⟩
  have hsub := Int64Value.sval_sub_of_isNegative_eq (ha.trans hb.symm)
  rw [hgte]
  omega

/-- The three results of `compare` are delivered as `NEG_ONE`, `ZERO` and `ONE` (R113, R163). -/
theorem Int64Value.fromInt32_compare (a b : Int64Value) :
    fromInt32 (BitVec.ofInt 32 (a.compare b)) =
      if a.sval < b.sval then .negOne else if a.sval = b.sval then .zero else .one := by
  rw [a.compare_eq_sign]
  obtain hlt | heq | hgt := Int.lt_trichotomy a.sval b.sval
  · rw [if_pos hlt, Int.sign_eq_neg_one_of_neg (by omega)]
    decide
  · rw [if_neg heq.not_lt, if_pos heq, heq, Int.sub_self]
    decide
  · rw [if_neg hgt.not_gt, if_neg hgt.ne', Int.sign_eq_one_of_pos (by omega)]
    decide

end Sys2Proof

namespace Sys2Proof.Machine

/-! ## The commands -/

/-- Settles O10: the result of `add` is the wrapped sum (`add_eq_wrap`). -/
theorem addWritesWrappedSum : Obligations.AddWritesWrappedSum := by
  intro s rd ra rb hready hg
  rw [exec_add, ← Int64Value.add_eq_wrap]
  exact performCommand_wroteOnly (fun s => (s.readReg ra).add (s.readReg rb)) rfl hready hg

/-- Settles O11: the result of `sub` is the wrapped difference (`sub_eq_wrap`). -/
theorem subWritesWrappedDifference : Obligations.SubWritesWrappedDifference := by
  intro s rd ra rb hready hg
  rw [exec_sub, ← Int64Value.sub_eq_wrap]
  exact performCommand_wroteOnly (fun s => (s.readReg ra).sub (s.readReg rb)) rfl hready hg

/-- Settles O12: the result of `neg` is the wrapped negation (`neg_eq_wrap`). -/
theorem negWritesWrappedNegation : Obligations.NegWritesWrappedNegation := by
  intro s rd ra hready hg
  rw [exec_neg, ← Int64Value.neg_eq_wrap]
  exact performCommand_wroteOnly (fun s => (s.readReg ra).neg) rfl hready hg

/-- Settles O23: `compare` delivers its sign through `fromInt32` (`fromInt32_compare`). -/
theorem compareWritesSignedOrder : Obligations.CompareWritesSignedOrder := by
  intro s rd ra rb hready hg
  rw [exec_compare, ← Int64Value.fromInt32_compare]
  exact performCommand_wroteOnly
    (fun s => fromInt32 (BitVec.ofInt 32 ((s.readReg ra).compare (s.readReg rb)))) rfl hready hg

end Sys2Proof.Machine
end

section
/-! Multiplication (43_multiply.md): `mul` is the product of 64-bit words, so the laws of R185 are laws of words, and the
chunks with their partial products (R180 to R182) compute it because what they leave out has weight `2^65`. -/

namespace Sys2Proof

/-! ## The readings of the operands (R183) -/

@[simp] theorem Int64Value.bits64_mul (a b : Int64Value) : (a.mul b).bits64 = a.bits64 * b.bits64 := bits64_limbs _

@[simp] theorem Int64Value.bits64_one : Int64Value.one.bits64 = 1 := by decide

/-- The product of the signed values has the same low 64 bits (R183). -/
theorem Int64Value.mul_eq_wrap (a b : Int64Value) : a.mul b = wrap (a.sval * b.sval) := by
  rw [Int64Value.eq_iff_bits64, bits64_mul, bits64_wrap, BitVec.ofInt_mul, a.sval_eq_toInt, b.sval_eq_toInt,
    BitVec.ofInt_toInt, BitVec.ofInt_toInt]

/-- Any number with the residue of the product of the patterns wraps to the product (R183). -/
theorem Int64Value.mul_eq_wrap_natCast {a b : Int64Value} {n : ℕ}
    (h : n % 2 ^ 64 = a.bits64.toNat * b.bits64.toNat % 2 ^ 64) : a.mul b = wrap n := by
  rw [Int64Value.eq_iff_bits64, bits64_mul, bits64_wrap, BitVec.ofInt_natCast]
  apply BitVec.eq_of_toNat_eq
  rw [BitVec.toNat_mul, BitVec.toNat_ofNat, h]

/-! ## Chunks (R180) -/

/-- The chunks of a value are the 13-bit fields of its pattern (R180). -/
theorem Int64Value.chunks_eq_fields (v : Int64Value) :
    v.chunks.c0 = v.bits64.toNat % 2 ^ 13 ∧ v.chunks.c1 = v.bits64.toNat / 2 ^ 13 % 2 ^ 13 ∧
      v.chunks.c2 = v.bits64.toNat / 2 ^ 26 % 2 ^ 13 ∧ v.chunks.c3 = v.bits64.toNat / 2 ^ 39 % 2 ^ 13 ∧
      v.chunks.c4 = v.bits64.toNat / 2 ^ 52 := by
  have hlow : v.low.toNat >>> 13 < 2 ^ 9 := by omega
  have hmid : v.mid.toNat >>> 17 < 2 ^ 5 := by omega
  rw [v.bits64_toNat, Int64Value.chunks, Nat.lor_comm, ← Nat.shiftLeft_add_eq_or_of_lt hlow, Nat.lor_comm,
    ← Nat.shiftLeft_add_eq_or_of_lt hmid, Nat.and_two_pow_sub_one_eq_mod _ 4, Nat.and_two_pow_sub_one_eq_mod _ 8,
    Nat.and_two_pow_sub_one_eq_mod _ 13, Nat.and_two_pow_sub_one_eq_mod _ 13]
  dsimp only
  omega

/-- The number that chunks stand for, chunk `k` at weight `2^(13k)` (R180). -/
def Chunks.weightedSum (c : Chunks) : ℕ := c.c0 + c.c1 * 2 ^ 13 + c.c2 * 2 ^ 26 + c.c3 * 2 ^ 39 + c.c4 * 2 ^ 52

/-- No chunk has more than 13 bits (R180). -/
structure Chunks.InRange (c : Chunks) : Prop where
  c0 : c.c0 < 2 ^ 13
  c1 : c.c1 < 2 ^ 13
  c2 : c.c2 < 2 ^ 13
  c3 : c.c3 < 2 ^ 13
  c4 : c.c4 < 2 ^ 13

theorem Int64Value.weightedSum_chunks (v : Int64Value) : v.chunks.weightedSum = v.bits64.toNat := by
  obtain ⟨h0, h1, h2, h3, h4⟩ := v.chunks_eq_fields
  rw [Chunks.weightedSum, h0, h1, h2, h3, h4]
  omega

theorem Int64Value.chunks_inRange (v : Int64Value) : v.chunks.InRange := by
  obtain ⟨h0, h1, h2, h3, h4⟩ := v.chunks_eq_fields
  constructor <;> omega

/-! ## Partial products (R181) -/

/-- The number that partial products stand for, group `k` at weight `2^(13k)` (R181). -/
def PartialProducts.weightedSum (p : PartialProducts) : ℕ :=
  p.p0 + p.p1 * 2 ^ 13 + p.p2 * 2 ^ 26 + p.p3 * 2 ^ 39 + p.p4 * 2 ^ 52

/-- The ten products left out have weight `2^65` or more (R181). -/
theorem weightedSum_partialProducts_modEq (x y : Chunks) :
    (partialProducts x y).weightedSum ≡ x.weightedSum * y.weightedSum [MOD 2 ^ 64] := by
  have hsplit : x.weightedSum * y.weightedSum = (partialProducts x y).weightedSum + 2 ^ 64 * (2 *
      (x.c4 * y.c1 + x.c3 * y.c2 + x.c2 * y.c3 + x.c1 * y.c4 + (x.c4 * y.c2 + x.c3 * y.c3 + x.c2 * y.c4) * 2 ^ 13 +
        (x.c4 * y.c3 + x.c3 * y.c4) * 2 ^ 26 + x.c4 * y.c4 * 2 ^ 39)) := by
    simp only [Chunks.weightedSum, PartialProducts.weightedSum, partialProducts]
    ring
  rw [hsplit]
  exact (Nat.add_mul_mod_self_left _ _ _).symm

/-- Every group is a sum of at most five products of 13-bit numbers (R181). -/
theorem partialProducts_lt {x y : Chunks} (hx : x.InRange) (hy : y.InRange) :
    (partialProducts x y).p0 < 2 ^ 29 ∧ (partialProducts x y).p1 < 2 ^ 29 ∧ (partialProducts x y).p2 < 2 ^ 29 ∧
      (partialProducts x y).p3 < 2 ^ 29 ∧ (partialProducts x y).p4 < 2 ^ 29 := by
  have hprod {m n : ℕ} : m < 2 ^ 13 → n < 2 ^ 13 → m * n < 2 ^ 26 := Nat.mul_lt_mul''
  obtain ⟨hx0, hx1, hx2, hx3, hx4⟩ := hx
  obtain ⟨hy0, hy1, hy2, hy3, hy4⟩ := hy
  simp only [partialProducts]
  grind

/-- The carries between the limbs lose nothing below `2^64` (R182). -/
theorem toNat_bits64_accumulate (p : PartialProducts) : (accumulate p).bits64.toNat = p.weightedSum % 2 ^ 64 := by
  rw [Int64Value.bits64_toNat]
  simp only [accumulate, PartialProducts.weightedSum, BitVec.toNat_ofNat]
  rw [Nat.and_two_pow_sub_one_eq_mod _ 5, Nat.and_two_pow_sub_one_eq_mod _ 9, Nat.and_two_pow_sub_one_eq_mod _ 12,
    Nat.and_two_pow_sub_one_eq_mod _ 18, Nat.and_two_pow_sub_one_eq_mod _ 22]
  omega

/-- The partial products of two values' chunks have the residue of the product of their patterns (R181, R183). -/
theorem Int64Value.weightedSum_partialProducts_chunks (a b : Int64Value) :
    (partialProducts a.chunks b.chunks).weightedSum % 2 ^ 64 = a.bits64.toNat * b.bits64.toNat % 2 ^ 64 := by
  have h := weightedSum_partialProducts_modEq a.chunks b.chunks
  rwa [a.weightedSum_chunks, b.weightedSum_chunks] at h

/-- The construction by chunks computes the product (R180 to R183). -/
theorem Int64Value.mulByChunks_eq_mul (a b : Int64Value) : a.mulByChunks b = a.mul b := by
  rw [Int64Value.eq_iff_bits64, bits64_mul]
  apply BitVec.eq_of_toNat_eq
  rw [BitVec.toNat_mul, Int64Value.mulByChunks, toNat_bits64_accumulate, weightedSum_partialProducts_chunks]

/-- Settles O38: all three numbers have the residue of the product of the patterns modulo `2^64`
(`weightedSum_partialProducts_chunks` for the partial products). -/
theorem productReadingsAgree : Obligations.ProductReadingsAgree := by
  intro a b
  exact ⟨by exact_mod_cast Int64Value.mul_eq_wrap_natCast rfl, a.mul_eq_wrap b,
    Int64Value.mul_eq_wrap_natCast (a.weightedSum_partialProducts_chunks b)⟩

/-- Settles O39: chunks of 13 bits bound the partial products (`partialProducts_lt`), and the accumulation keeps their
weighted sum modulo `2^64` (`toNat_bits64_accumulate`). -/
theorem chunkedMultiplicationIsMul : Obligations.ChunkedMultiplicationIsMul :=
  ⟨Int64Value.chunks_eq_fields, fun a b =>
    ⟨partialProducts_lt a.chunks_inRange b.chunks_inRange, a.mulByChunks_eq_mul b⟩⟩

/-! ## Laws of `mul` (R185) -/

/-- Multiplying by a power of two is a left shift (R185). -/
theorem Int64Value.mul_shl_one (a : Int64Value) (n : Native) : a.mul (Int64Value.one.shl n) = a.shl n := by
  rw [Int64Value.eq_iff_bits64, bits64_mul, bits64_shl, bits64_shl, bits64_one, BitVec.shiftLeft_eq_mul_twoPow a.bits64,
    BitVec.twoPow_eq]
  rfl

/-- Settles O40: the laws are those of 64-bit words (`bits64_mul`), the shift law is `mul_shl_one`. -/
theorem multiplyLaws : Obligations.MultiplyLaws := by
  intro a b c
  refine ⟨?_, ?_, ?_, fun n _ => a.mul_shl_one n, ?_⟩
  all_goals simp only [Int64Value.eq_iff_bits64, Int64Value.bits64_mul, Int64Value.bits64_add, Int64Value.bits64_neg]
  · exact BitVec.mul_comm _ _
  · exact BitVec.mul_assoc _ _ _
  · exact BitVec.mul_add
  · exact BitVec.neg_mul _ _

end Sys2Proof

namespace Sys2Proof.Machine

/-! ## The command -/

/-- Settles O13: the result of `mul` is the wrapped product of the signed values (`mul_eq_wrap`). -/
theorem mulWritesWrappedProduct : Obligations.MulWritesWrappedProduct := by
  intro s rd ra rb hready hg
  rw [exec_mul, ← Int64Value.mul_eq_wrap]
  exact performCommand_wroteOnly (fun s => (s.readReg ra).mul (s.readReg rb)) rfl hready hg

end Sys2Proof.Machine
end

section
/-! Values as wrapped integers: an operation of the block on two wrapped integers is the wrapped result of the integer
operation (00_scope.md rule R9), and a wrapped integer in the signed range is read back exactly. -/

namespace Sys2Proof

theorem sval_wrap_of_mem {n : ℤ} (hlo : -2 ^ 63 ≤ n) (hhi : n < 2 ^ 63) : (wrap n).sval = n := by
  rw [Int64Value.sval_eq_toInt, bits64_wrap]
  exact BitVec.toInt_ofInt_eq_self (by decide) hlo hhi

@[simp] theorem Int64Value.sval_zero : Int64Value.zero.sval = 0 := by decide
@[simp] theorem Int64Value.sval_one : Int64Value.one.sval = 1 := by decide
@[simp] theorem Int64Value.sval_negOne : Int64Value.negOne.sval = -1 := by decide
@[simp] theorem Int64Value.sval_minValue : Int64Value.minValue.sval = -2 ^ 63 := by decide
@[simp] theorem Int64Value.sval_maxValue : Int64Value.maxValue.sval = 2 ^ 63 - 1 := by decide

@[simp] theorem wrap_zero : wrap 0 = .zero := by decide
@[simp] theorem wrap_one : wrap 1 = .one := by decide

@[simp] theorem Int64Value.neg_wrap (m : ℤ) : (wrap m).neg = wrap (-m) := by
  rw [Int64Value.eq_iff_bits64, bits64_neg, bits64_wrap, bits64_wrap, BitVec.ofInt_neg]

@[simp] theorem Int64Value.add_wrap (m n : ℤ) : (wrap m).add (wrap n) = wrap (m + n) := by
  rw [Int64Value.eq_iff_bits64, bits64_add, bits64_wrap, bits64_wrap, bits64_wrap, BitVec.ofInt_add]

@[simp] theorem Int64Value.sub_wrap (m n : ℤ) : (wrap m).sub (wrap n) = wrap (m - n) := by
  rw [Int64Value.eq_iff_bits64, bits64_sub, bits64_wrap, bits64_wrap, bits64_wrap, Int.sub_eq_add_neg, BitVec.ofInt_add,
    BitVec.ofInt_neg, BitVec.sub_eq_add_neg]

@[simp] theorem Int64Value.mul_wrap (m n : ℤ) : (wrap m).mul (wrap n) = wrap (m * n) := by
  rw [Int64Value.eq_iff_bits64, bits64_mul, bits64_wrap, bits64_wrap, bits64_wrap, BitVec.ofInt_mul]

@[simp] protected theorem Int64Value.neg_neg (a : Int64Value) : a.neg.neg = a := by
  rw [a.neg_eq_wrap, neg_wrap, Int.neg_neg, wrap_sval]

/-! ## The predicates, by the signed value (R160) -/

theorem Int64Value.isNegative_eq_decide (v : Int64Value) : v.isNegative = decide (v.sval < 0) := by
  rw [Bool.eq_iff_iff, v.isNegative_iff_sval_neg, decide_eq_true_iff]

theorem Int64Value.isZero_iff {v : Int64Value} : v.isZero = true ↔ v = .zero := by
  simp [Int64Value.isZero, Int64Value.eq_iff_limbs, Int64Value.zero, and_assoc]

theorem Int64Value.isMinValue_iff {v : Int64Value} : v.isMinValue = true ↔ v = .minValue := by
  simp only [Int64Value.isMinValue, Int64Value.eq_iff_limbs, Int64Value.minValue, Bool.and_eq_true, beq_iff_eq]
  tauto

theorem Int64Value.sval_ne_zero {v : Int64Value} (h : v ≠ .zero) : v.sval ≠ 0 := by
  rwa [← sval_zero, ne_eq, Int64Value.sval_inj]

theorem Int64Value.sval_ne_of_ne_minValue {v : Int64Value} (h : v ≠ .minValue) : v.sval ≠ -2 ^ 63 := by
  rwa [← sval_minValue, ne_eq, Int64Value.sval_inj]

theorem Int64Value.isZero_iff_sval {v : Int64Value} : v.isZero = true ↔ v.sval = 0 := by
  rw [Int64Value.isZero_iff, ← Int64Value.sval_inj, sval_zero]

/-- Every value but `MIN_VALUE` has its negation among the values (R154). -/
theorem Int64Value.sval_neg {v : Int64Value} (h : v ≠ .minValue) : v.neg.sval = -v.sval := by
  have hmin := sval_ne_of_ne_minValue h
  have hlo := v.le_sval
  have hhi := v.sval_lt
  rw [v.neg_eq_wrap, sval_wrap_of_mem (by omega) (by omega)]

/-- The difference of two values that are not negative is exact (R211). -/
theorem Int64Value.sval_sub {r d : Int64Value} (hr : 0 ≤ r.sval) (hd : 0 ≤ d.sval) :
    (r.sub d).sval = r.sval - d.sval := by
  have hr' := r.sval_lt
  have hd' := d.sval_lt
  rw [r.sub_eq_wrap, sval_wrap_of_mem (by omega) (by omega)]

/-- Settles O60: the difference of two values that are not negative is exact (`sval_sub`), and `gte` is their order. -/
theorem trialSubtractionTestsGte : Obligations.TrialSubtractionTestsGte := by
  refine ⟨fun r d hr hd => ?_, by decide, by decide⟩
  simp only [Int64Value.isNegative_eq_decide, decide_eq_false_iff_not, Int.not_lt] at hr hd
  have hsub := Int64Value.sval_sub hr hd
  refine ⟨?_, hsub⟩
  rw [Int64Value.isNegative_eq_decide, hsub, Int64Value.gte, ← decide_not, decide_eq_decide,
    Int64Value.compare_nonneg_iff]
  omega

end Sys2Proof
end

section
/-! The value of `divMod` (44_divmod.md rule R202): truncated division of the signed values, whose remainder is always
exact and whose quotient wraps only for `MIN_VALUE / NEG_ONE`. -/

namespace Sys2Proof

theorem Int64Value.divMod_eq_none (a : Int64Value) {b : Int64Value} (h : b.isZero = true) : a.divMod b = none := if_pos h

theorem Int64Value.divMod_eq_some (a : Int64Value) {b : Int64Value} (h : b.isZero = false) :
    a.divMod b = some (a.quotient b, a.remainder b) := if_neg (Bool.eq_false_iff.mp h)

theorem Int64Value.remainder_eq_wrap_tmod (a b : Int64Value) : a.remainder b = wrap (a.sval.tmod b.sval) := by
  rw [Int64Value.remainder, Int.tmod_def, Int.mul_comm]

/-- The pair reconstructs the dividend (R202). -/
theorem Int64Value.quotient_mul_add_remainder (a b : Int64Value) : ((a.quotient b).mul b).add (a.remainder b) = a := by
  calc ((a.quotient b).mul b).add (a.remainder b)
    _ = ((a.quotient b).mul (wrap b.sval)).add (a.remainder b) := by rw [wrap_sval]
    _ = wrap (a.sval.tdiv b.sval * b.sval + a.sval.tmod b.sval) := by
      rw [remainder_eq_wrap_tmod, Int64Value.quotient, mul_wrap, add_wrap]
    _ = a := by rw [Int.tdiv_mul_add_tmod, wrap_sval]

theorem abs_tmod_lt_abs (m : ℤ) {n : ℤ} (hn : n ≠ 0) : |m.tmod n| < |n| := by
  rw [Int.abs_eq_natAbs, Int.abs_eq_natAbs, Int.natAbs_tmod]
  exact_mod_cast Nat.mod_lt _ (Int.natAbs_pos.mpr hn)

/-- The remainder is exact (R202). -/
theorem Int64Value.sval_remainder (a : Int64Value) {b : Int64Value} (hb : b.sval ≠ 0) :
    (a.remainder b).sval = a.sval.tmod b.sval := by
  have hlt := abs_tmod_lt_abs a.sval hb
  have hlo := b.le_sval
  have hhi := b.sval_lt
  rw [a.remainder_eq_wrap_tmod, sval_wrap_of_mem (by grind) (by grind)]

/-- Truncated division leaves the range of its operands only for `-2^63 / -1`: with a quotient of `2^63` any other divisor
puts the dividend out of range (R202). -/
theorem tdiv_lt_two_pow_63 {m n : ℤ} (hlo : -2 ^ 63 ≤ m) (hhi : m < 2 ^ 63) (h : ¬(m = -2 ^ 63 ∧ n = -1)) :
    m.tdiv n < 2 ^ 63 := by
  by_contra hge
  have hq : m.tdiv n = 2 ^ 63 := by
    have hnatAbs := Int.natAbs_tdiv_le_natAbs m n
    omega
  have hn : n ≠ 0 := by
    rintro rfl
    simp at hq
  have hdiv := Int.mul_tdiv_add_tmod m n
  have hlt := abs_tmod_lt_abs m hn
  rw [hq] at hdiv
  grind

/-- Only `MIN_VALUE / NEG_ONE` wraps (R202). -/
theorem Int64Value.sval_quotient {a b : Int64Value} (h : ¬(a = .minValue ∧ b = .negOne)) :
    (a.quotient b).sval = a.sval.tdiv b.sval := by
  have hlo := a.le_sval
  have hhi := a.sval_lt
  refine sval_wrap_of_mem ?_ (tdiv_lt_two_pow_63 hlo hhi ?_)
  · have hnatAbs := Int.natAbs_tdiv_le_natAbs a.sval b.sval
    omega
  · rwa [← sval_minValue, ← sval_negOne, Int64Value.sval_inj, Int64Value.sval_inj]

theorem tmod_eq_zero_or_neg_iff (m n : ℤ) : m.tmod n = 0 ∨ (m.tmod n < 0 ↔ m < 0) := by
  rcases lt_or_ge m 0 with hm | hm
  · have hnonneg := Int.tmod_nonneg n (Int.neg_nonneg_of_nonpos hm.le)
    rw [Int.neg_tmod] at hnonneg
    omega
  · have hnonneg := Int.tmod_nonneg n hm
    omega

/-- The quotient is not positive between operands of different signs (R202). -/
theorem Int64Value.tdiv_nonpos_of_isNegative_ne {a b : Int64Value} (h : a.isNegative ≠ b.isNegative) :
    a.sval.tdiv b.sval ≤ 0 := by
  simp only [Int64Value.isNegative_eq_decide, ne_eq, decide_eq_decide] at h
  rcases lt_or_ge a.sval 0 with ha | ha
  · have hnonneg := Int.tdiv_nonneg (a := -a.sval) (b := b.sval) (by omega) (by omega)
    rw [Int.neg_tdiv] at hnonneg
    omega
  · exact Int.tdiv_nonpos_of_nonneg_of_nonpos ha (by omega)

/-- The quotient is not negative between operands of one sign (R202). -/
theorem Int64Value.tdiv_nonneg_of_isNegative_eq {a b : Int64Value} (h : a.isNegative = b.isNegative) :
    0 ≤ a.sval.tdiv b.sval := by
  simp only [Int64Value.isNegative_eq_decide, decide_eq_decide] at h
  rcases lt_or_ge a.sval 0 with ha | ha
  · exact Int.tdiv_nonneg_of_nonpos_of_nonpos ha.le (h.mp ha).le
  · exact Int.tdiv_nonneg ha (by omega)

/-- Settles O41: the remainder is exact (`sval_remainder`), and so is the quotient (`sval_quotient`) but for
`MIN_VALUE / NEG_ONE`, where both signs agree. -/
theorem divModPairIsTruncatedDivision : Obligations.DivModPairIsTruncatedDivision := by
  intro a b hb
  have hsval := Int64Value.sval_ne_zero hb
  refine ⟨a.quotient b, a.remainder b, a.divMod_eq_some ?_, rfl, rfl, a.quotient_mul_add_remainder b, ?_, ?_,
    Int64Value.sval_quotient, ?_, ?_, ?_⟩
  · rwa [Bool.eq_false_iff, ne_eq, Int64Value.isZero_iff]
  · rw [a.sval_remainder hsval]
    exact abs_tmod_lt_abs _ hsval
  · rw [a.sval_remainder hsval]
    exact tmod_eq_zero_or_neg_iff _ _
  · rintro rfl rfl
    decide
  · intro hsign
    rw [Int64Value.sval_quotient]
    · exact Int64Value.tdiv_nonpos_of_isNegative_ne hsign
    · rintro ⟨rfl, rfl⟩
      exact hsign rfl
  · intro hsign hwraps
    rw [Int64Value.sval_quotient hwraps]
    exact Int64Value.tdiv_nonneg_of_isNegative_eq hsign

end Sys2Proof

namespace Sys2Proof.Machine

/-! ## The commands (R230) -/

theorem divModQuotientEffect_of_ne_zero (rd ra : RegIdx) {rb : RegIdx} {s : State} (h : (s.readReg rb).sval ≠ 0) :
    divModQuotientEffect rd ra rb s = s.complete rd ((s.readReg ra).quotient (s.readReg rb)) :=
  if_neg (mt Int64Value.isZero_iff_sval.mp h)

theorem divModPairEffect_of_ne_zero (rd rr ra : RegIdx) {rb : RegIdx} {s : State} (h : (s.readReg rb).sval ≠ 0) :
    divModPairEffect rd rr ra rb s =
      s.completePair rd rr ((s.readReg ra).quotient (s.readReg rb)) ((s.readReg ra).remainder (s.readReg rb)) :=
  if_neg (mt Int64Value.isZero_iff_sval.mp h)

/-- Settles O14: with a divisor that is not zero the effect is to write the quotient. -/
theorem divModQuotientWritesQuotient : Obligations.DivModQuotientWritesQuotient := by
  intro s rd ra rb hready hg hb
  have hw : (Instr.divModQuotient rd ra rb).wellFormed = true := by simp [Instr.wellFormed, Instr.destinations, hg]
  refine ⟨_, ?_, s.complete_wroteOnly rd ((s.readReg ra).quotient (s.readReg rb)) hg⟩
  rw [exec_divModQuotient, performCommand_wellFormed _ _ s hready hw, divModQuotientEffect_of_ne_zero rd ra hb]

/-- Settles O15: with a divisor that is not zero the effect is to write the pair, which reconstructs the dividend
(`quotient_mul_add_remainder`). -/
theorem divModPairWritesBoth : Obligations.DivModPairWritesBoth := by
  intro s rd rr ra rb hready hd hr hne hb
  have hw : (Instr.divModPair rd rr ra rb).wellFormed = true := by
    simp [Instr.wellFormed, Instr.destinations, hd, hr, hne.symm]
  obtain ⟨hq, hrem, hframe⟩ := s.completePair_wroteBoth rd rr ((s.readReg ra).quotient (s.readReg rb))
    ((s.readReg ra).remainder (s.readReg rb)) hd hr hne.symm
  refine ⟨_, _, ?_, ⟨hq, hrem, hframe⟩, (s.readReg ra).sval_remainder hb, ?_⟩
  · rw [exec_divModPair, performCommand_wellFormed _ _ s hready hw, divModPairEffect_of_ne_zero rd rr ra hb]
  · rw [hq, hrem, Int64Value.quotient_mul_add_remainder]

end Sys2Proof.Machine
end

section
/-! Division of positive values (44_divmod.md rules R200, R201, R207 to R211): the power-of-two fast path, the dividend
with more leading zeros, and the bit-at-a-time loop each return the quotient and the remainder of the magnitudes. -/

namespace Sys2Proof

/-! ## Shifts and bits of wrapped integers -/

/-- `shr` by an effective count floors (R133). -/
theorem Int64Value.shrBy_eq_wrap (v : Int64Value) (k : ℕ) : v.shrBy k = wrap (v.sval / 2 ^ k) := by
  rw [Int64Value.eq_iff_bits64, v.bits64_shrBy, bits64_wrap, v.sval_eq_toInt, BitVec.sshiftRight_eq,
    Int.shiftRight_eq_div_pow, Nat.cast_pow, Nat.cast_ofNat]

/-- A power of two moves a 64-bit pattern up (R131). -/
theorem ofInt_mul_two_pow (m : ℤ) (k : ℕ) : BitVec.ofInt 64 (m * 2 ^ k) = BitVec.ofInt 64 m <<< k := by
  have hpow : BitVec.ofInt 64 (2 ^ k) = BitVec.twoPow 64 k := by
    simpa [BitVec.twoPow_eq] using ofInt_toInt_mul_two_pow 64 (1 : BitVec 2) k
  rw [BitVec.ofInt_mul, hpow, BitVec.shiftLeft_eq_mul_twoPow]

theorem Int64Value.shlBy_eq_wrap (v : Int64Value) (k : ℕ) : v.shlBy k = wrap (v.sval * 2 ^ k) := by
  rw [Int64Value.eq_iff_bits64, bits64_shlBy, bits64_wrap, ofInt_mul_two_pow, v.sval_eq_toInt, BitVec.ofInt_toInt]

theorem Int64Value.shruBy_one_wrap {m : ℤ} (hlo : 0 ≤ m) (hhi : m < 2 ^ 64) : (wrap m).shruBy 1 = wrap (m / 2) := by
  rw [Int64Value.eq_iff_bits64, bits64_shruBy, bits64_wrap, bits64_wrap]
  apply BitVec.eq_of_toNat_eq
  rw [BitVec.toNat_ushiftRight, BitVec.toNat_ofInt, BitVec.toNat_ofInt, Nat.shiftRight_eq_div_pow]
  omega

/-- Quotient bit `n` is set where only higher bits stand, so `or` adds it (R211). -/
theorem Int64Value.or_one_shlBy (c : ℤ) (n : ℕ) :
    (wrap (c * 2 ^ (n + 1))).or (Int64Value.one.shlBy n) = wrap (c * 2 ^ (n + 1) + 2 ^ n) := by
  have hdisjoint : BitVec.ofInt 64 c <<< (n + 1) &&& BitVec.ofInt 64 1 <<< n = 0 := by
    apply BitVec.eq_of_getLsbD_eq
    intro i _
    by_cases hi : i < n + 1
    · simp [hi]
    · simp [show i - n ≠ 0 by omega]
  rw [shlBy_eq_wrap, sval_one, Int64Value.eq_iff_bits64, bits64_or, bits64_wrap, bits64_wrap, bits64_wrap,
    ofInt_mul_two_pow, ofInt_mul_two_pow, ← BitVec.add_eq_or_of_and_eq_zero _ _ hdisjoint, BitVec.ofInt_add,
    ofInt_mul_two_pow, ← ofInt_mul_two_pow 1, Int.one_mul]

/-! ## The loop (R211) -/

theorem divisionLoop_succ_of_neg {n : ℕ} {d q r : Int64Value} (h : (r.sub d).sval < 0) :
    divisionLoop (n + 1) d q r = divisionLoop n (d.shruBy 1) q r :=
  if_pos ((r.sub d).isNegative_iff_sval_neg.mpr h)

theorem divisionLoop_succ_of_zero {n : ℕ} {d q r : Int64Value} (h : (r.sub d).sval = 0) :
    divisionLoop (n + 1) d q r = (q.or (Int64Value.one.shlBy n), r.sub d) := by
  have hneg : (r.sub d).isNegative = false := by simp [Int64Value.isNegative_eq_decide, h]
  simp [divisionLoop, hneg, Int64Value.isZero_iff_sval.mpr h]

theorem divisionLoop_succ_of_pos {n : ℕ} {d q r : Int64Value} (h : 0 < (r.sub d).sval) :
    divisionLoop (n + 1) d q r = divisionLoop n (d.shruBy 1) (q.or (Int64Value.one.shlBy n)) (r.sub d) := by
  have hneg : (r.sub d).isNegative = false := by simp [Int64Value.isNegative_eq_decide, h.le]
  have hzero : (r.sub d).isZero = false := by simp [Bool.eq_false_iff, Int64Value.isZero_iff_sval, h.ne']
  simp [divisionLoop, hneg, hzero]

/-- The invariant of the loop. With `n` quotient bits still to come, the divisor stands moved up by `n - 1`, the quotient
found is a multiple of `2^n`, and what remains is below the divisor moved up by `n` (R211). -/
theorem divisionLoop_wrap {b : ℤ} (hb : 0 < b) (n : ℕ) (c m : ℤ) (hd : b * 2 ^ n / 2 < 2 ^ 63) (hlo : 0 ≤ m)
    (hlt : m < b * 2 ^ n) (hhi : m < 2 ^ 63) :
    divisionLoop n (wrap (b * 2 ^ n / 2)) (wrap (c * 2 ^ n)) (wrap m) = (wrap (c * 2 ^ n + m / b), wrap (m % b)) := by
  induction n generalizing c m with
  | zero =>
    rw [pow_zero, Int.mul_one] at hlt
    rw [divisionLoop, Int.ediv_eq_zero_of_lt hlo hlt, Int.emod_eq_of_lt hlo hlt, Int.add_zero]
  | succ n ih =>
    have hpos : 0 < b * 2 ^ n := by positivity
    have hdouble : b * 2 ^ (n + 1) = b * 2 ^ n * 2 := by ring
    have hhalf : b * 2 ^ (n + 1) / 2 = b * 2 ^ n := by omega
    rw [hhalf] at hd ⊢
    have htrial : ((wrap m).sub (wrap (b * 2 ^ n))).sval = m - b * 2 ^ n := by
      rw [Int64Value.sub_wrap, sval_wrap_of_mem (by omega) (by omega)]
    have hshift : (wrap (b * 2 ^ n)).shruBy 1 = wrap (b * 2 ^ n / 2) := Int64Value.shruBy_one_wrap hpos.le (by omega)
    have hbit : c * 2 ^ (n + 1) + 2 ^ n = (2 * c + 1) * 2 ^ n := by ring
    have hquot : m / b = (m - b * 2 ^ n) / b + 2 ^ n := by
      rw [← Int.add_mul_ediv_left _ _ hb.ne', Int.sub_add_cancel]
    have hrem : m % b = (m - b * 2 ^ n) % b :=
      (Int.sub_mul_emod_self_left m b (2 ^ n)).symm
    rcases lt_trichotomy m (b * 2 ^ n) with h | h | h
    · have hq : c * 2 ^ (n + 1) = 2 * c * 2 ^ n := by ring
      rw [divisionLoop_succ_of_neg (by omega), hshift, hq, ih (2 * c) m (by omega) hlo h hhi]
    · rw [divisionLoop_succ_of_zero (by omega), Int64Value.or_one_shlBy, Int64Value.sub_wrap, hquot, hrem,
        Int.sub_eq_zero.mpr h, Int.zero_ediv, Int.zero_emod, Int.zero_add]
    · rw [divisionLoop_succ_of_pos (by omega), hshift, Int64Value.or_one_shlBy, Int64Value.sub_wrap, hquot, hrem, hbit,
        ih (2 * c + 1) (m - b * 2 ^ n) (by omega) (by omega) (by omega) (by omega), ← hbit, Int.add_assoc,
        Int.add_comm (2 ^ n)]

/-- The loop from its start: no quotient bit found, and the divisor moved up to the dividend's highest bit (R211). -/
theorem divisionLoop_aligned {a b : Int64Value} {sh : ℕ} (ha : 0 ≤ a.sval) (hb : 0 < b.sval)
    (hfits : b.sval * 2 ^ sh < 2 ^ 63) (hbelow : a.sval < b.sval * 2 ^ (sh + 1)) :
    divisionLoop (sh + 1) (b.shlBy sh) .zero a = (wrap (a.sval / b.sval), wrap (a.sval % b.sval)) := by
  have hhalf : b.sval * 2 ^ (sh + 1) / 2 = b.sval * 2 ^ sh := by
    rw [pow_succ, ← Int.mul_assoc, Int.mul_ediv_cancel _ (by decide)]
  have hloop := divisionLoop_wrap hb (sh + 1) 0 a.sval (by rwa [hhalf]) ha hbelow a.sval_lt
  rwa [hhalf, ← b.shlBy_eq_wrap, Int.zero_mul, wrap_zero, Int.zero_add, wrap_sval] at hloop

/-! ## Leading zeros (R200) -/

theorem log2_mul_two_pow_add {h x k : ℕ} (hh : h ≠ 0) (hx : x < 2 ^ k) : (h * 2 ^ k + x).log2 = h.log2 + k := by
  have hlo := Nat.log2_self_le hh
  have hhi : h + 1 ≤ 2 ^ (h.log2 + 1) := Nat.lt_log2_self
  have hpos : 0 < h * 2 ^ k := by positivity
  rw [Nat.log2_eq_iff (by omega), Nat.pow_add, Nat.add_right_comm, Nat.pow_add]
  exact ⟨(Nat.mul_le_mul_right _ hlo).trans (Nat.le_add_right _ _),
    lt_of_lt_of_le (by rw [Nat.add_mul]; omega) (Nat.mul_le_mul_right (2 ^ k) hhi)⟩

/-- The limbs give the place of the highest bit of the pattern (R200). -/
theorem Int64Value.leadingZeros_eq (v : Int64Value) (h : v.bits64.toNat ≠ 0) :
    v.leadingZeros = 63 - v.bits64.toNat.log2 := by
  have hlow := v.low.isLt
  have hmid := v.mid.isLt
  have hpat := v.bits64_toNat
  fun_cases Int64Value.leadingZeros v
  all_goals simp only [ne_eq, not_not, ← BitVec.toNat_inj, BitVec.ofNat_eq_ofNat, BitVec.toNat_ofNat,
    Nat.zero_mod] at *
  case case1 hh =>
    have hlog := log2_mul_two_pow_add (k := 44) hh (x := v.low.toNat + v.mid.toNat * 2 ^ 22) (by omega)
    rw [hpat, Nat.add_comm, hlog]
    omega
  case case2 hh hhm =>
    have hlog := log2_mul_two_pow_add (k := 22) hhm hlow
    have hval : v.bits64.toNat = v.mid.toNat * 2 ^ 22 + v.low.toNat := by omega
    rw [hval, hlog]
    omega
  case case3 hh hm hl =>
    have hval : v.bits64.toNat = v.low.toNat := by omega
    rw [hval]
  case case4 => omega

/-- Two positive numbers with their highest bits aligned: the moved one stays below the next power of two, and moved
once more it is above the other (R211). -/
theorem mul_two_pow_log2_sub {m n : ℕ} (hn : n ≠ 0) (h : n.log2 ≤ m.log2) :
    n * 2 ^ (m.log2 - n.log2) < 2 ^ (m.log2 + 1) ∧ m < n * 2 ^ (m.log2 - n.log2 + 1) := by
  have hm' : m < 2 ^ (m.log2 + 1) := Nat.lt_log2_self
  have hn' : n < 2 ^ (n.log2 + 1) := Nat.lt_log2_self
  have hn'' : 2 ^ n.log2 ≤ n := Nat.log2_self_le hn
  constructor
  · calc n * 2 ^ (m.log2 - n.log2)
      _ < 2 ^ (n.log2 + 1) * 2 ^ (m.log2 - n.log2) := Nat.mul_lt_mul_of_pos_right hn' (by positivity)
      _ = 2 ^ (m.log2 + 1) := by rw [← Nat.pow_add]; congr 1; omega
  · calc m
      _ < 2 ^ (m.log2 + 1) := hm'
      _ = 2 ^ n.log2 * 2 ^ (m.log2 - n.log2 + 1) := by rw [← Nat.pow_add]; congr 1; omega
      _ ≤ n * 2 ^ (m.log2 - n.log2 + 1) := Nat.mul_le_mul_right _ hn''

/-! ## Powers of two (R201) -/

theorem Int64Value.toNat_bits64 {v : Int64Value} (h : 0 ≤ v.sval) : (v.bits64.toNat : ℤ) = v.sval := by
  have hsign : v.isNegative = false := by simp [Int64Value.isNegative_eq_decide, h]
  simp [Int64Value.sval, hsign]

theorem Int64Value.eq_wrap_of_toNat {v : Int64Value} {n : ℤ} (h : (v.bits64.toNat : ℤ) = n) : v = wrap n := by
  rw [Int64Value.eq_iff_bits64, bits64_wrap, ← h, BitVec.ofInt_natCast, BitVec.ofNat_toNat, BitVec.setWidth_eq]

theorem Int64Value.bits64_eq_two_pow_iff {v : Int64Value} {k : ℕ} (hk : k < 63) :
    v.bits64 = BitVec.ofNat 64 (2 ^ k) ↔ v.sval = 2 ^ k := by
  have hlt : (2 : ℤ) ^ k < 2 ^ 63 := pow_lt_pow_right₀ (by decide) hk
  have hpos : (0 : ℤ) < 2 ^ k := by positivity
  have hval : (wrap (2 ^ k)).sval = 2 ^ k := sval_wrap_of_mem (by omega) hlt
  rw [← BitVec.ofInt_natCast, Nat.cast_pow, Nat.cast_ofNat, ← bits64_wrap, ← Int64Value.eq_iff_bits64,
    ← Int64Value.sval_inj, hval]

theorem Int64Value.powerOfTwo_eq_some {v : Int64Value} {k : ℕ} (h : v.powerOfTwo = some k) : k < 63 ∧ v.sval = 2 ^ k := by
  unfold Int64Value.powerOfTwo at h
  have hk : k < 63 := List.mem_range.mp (List.mem_of_find?_eq_some h)
  have hbits := List.find?_some h
  exact ⟨hk, (Int64Value.bits64_eq_two_pow_iff hk).mp (beq_iff_eq.mp hbits)⟩

theorem Int64Value.powerOfTwo_eq_none {v : Int64Value} {k : ℕ} (h : v.powerOfTwo = none) (hk : k < 63) :
    v.sval ≠ 2 ^ k := by
  rw [ne_eq, ← Int64Value.bits64_eq_two_pow_iff hk, ← beq_iff_eq]
  exact List.find?_eq_none.mp h k (List.mem_range.mpr hk)

/-! ## Division of magnitudes (R207, R210, R211) -/

/-- The mask `b - 1` selects the low bits of the dividend (R207). -/
theorem Int64Value.and_sub_one {a b : Int64Value} {k : ℕ} (ha : 0 ≤ a.sval) (hb : b.sval = 2 ^ k) :
    a.and (b.sub .one) = wrap (a.sval % b.sval) := by
  have hpos : 0 < 2 ^ k := by positivity
  have hbnat : b.bits64.toNat = 2 ^ k := by
    have hval := Int64Value.toNat_bits64 (v := b) (by rw [hb]; positivity)
    rw [hb] at hval
    exact_mod_cast hval
  have hmask : (b.sub .one).bits64.toNat = 2 ^ k - 1 := by
    rw [bits64_sub, bits64_one, BitVec.toNat_sub_of_le (by rw [BitVec.le_def, hbnat]; exact hpos), hbnat]
    rfl
  apply Int64Value.eq_wrap_of_toNat
  rw [bits64_and, BitVec.toNat_and, hmask, Nat.and_two_pow_sub_one_eq_mod, Int.natCast_mod, toNat_bits64 ha, hb,
    Nat.cast_pow, Nat.cast_ofNat]

theorem magnitudeDivision_some {a b : Int64Value} {k : ℕ} (ha : 0 ≤ a.sval) (hb : b.sval = 2 ^ k) :
    magnitudeDivision (some k) a b = (wrap (a.sval / b.sval), wrap (a.sval % b.sval)) := by
  rw [magnitudeDivision, a.shrBy_eq_wrap, Int64Value.and_sub_one ha hb, hb]

theorem magnitudeDivision_none {a b : Int64Value} (ha : 0 < a.sval) (hb : 0 < b.sval) :
    magnitudeDivision none a b = (wrap (a.sval / b.sval), wrap (a.sval % b.sval)) := by
  have hhi := a.sval_lt
  have ham := Int64Value.toNat_bits64 ha.le
  have hbn := Int64Value.toNat_bits64 hb.le
  have hm : a.bits64.toNat ≠ 0 := by omega
  have hn : b.bits64.toNat ≠ 0 := by omega
  have hlog : a.bits64.toNat.log2 < 63 := (Nat.log2_lt hm).mpr (by omega)
  simp only [magnitudeDivision, a.leadingZeros_eq hm, b.leadingZeros_eq hn]
  split
  · have hlt : a.bits64.toNat < b.bits64.toNat := ((Nat.log2_lt hm).mp (by omega)).trans_le (Nat.log2_self_le hn)
    rw [Int.ediv_eq_zero_of_lt ha.le (by omega), Int.emod_eq_of_lt ha.le (by omega), wrap_zero, wrap_sval]
  · obtain ⟨haligned, hbelow⟩ := mul_two_pow_log2_sub (m := a.bits64.toNat) hn (by omega)
    have hfits := haligned.trans_le (Nat.pow_le_pow_right (by decide) hlog)
    have hsh : 63 - b.bits64.toNat.log2 - (63 - a.bits64.toNat.log2) = a.bits64.toNat.log2 - b.bits64.toNat.log2 := by
      omega
    rw [hsh]
    exact divisionLoop_aligned ha.le hb (by rw [← hbn]; exact_mod_cast hfits)
      (by rw [← ham, ← hbn]; exact_mod_cast hbelow)

/-- On positive values the magnitude division is `divMod` (R207, R210, R211). -/
theorem magnitudeDivision_powerOfTwo {a b : Int64Value} (ha : 0 < a.sval) (hb : 0 < b.sval) :
    magnitudeDivision b.powerOfTwo a b = (a.quotient b, a.remainder b) := by
  rw [Int64Value.quotient, a.remainder_eq_wrap_tmod, Int.tdiv_eq_ediv_of_nonneg ha.le, Int.tmod_eq_emod_of_nonneg ha.le]
  cases hk : b.powerOfTwo with
  | none => exact magnitudeDivision_none ha hb
  | some k => exact magnitudeDivision_some ha.le (Int64Value.powerOfTwo_eq_some hk).2

end Sys2Proof
end

section
/-! The seven-step procedure returns the pair of `divMod` (44_divmod.md rules R203 to R214): each sign flip of the
procedure is one that truncated division has, so the magnitudes' pair with its flips is the operands' pair. -/

namespace Sys2Proof

/-! ## Signs (R206, R208, R212) -/

/-- Negating the divisor negates the quotient and leaves the remainder (R206). -/
theorem Int64Value.divide_neg (a : Int64Value) {b : Int64Value} (hb : b ≠ .minValue) :
    a.quotient b.neg = (a.quotient b).neg ∧ a.remainder b.neg = a.remainder b := by
  simp only [remainder_eq_wrap_tmod, Int64Value.quotient, sval_neg hb, Int.tdiv_neg, Int.tmod_neg, neg_wrap, and_self]

/-- Negating the dividend negates the quotient and the remainder (R208). -/
theorem Int64Value.neg_divide {a : Int64Value} (b : Int64Value) (ha : a ≠ .minValue) :
    a.neg.quotient b = (a.quotient b).neg ∧ a.neg.remainder b = (a.remainder b).neg := by
  simp only [remainder_eq_wrap_tmod, Int64Value.quotient, sval_neg ha, Int.neg_tdiv, Int.neg_tmod, neg_wrap, and_self]

/-- The magnitude that step 4 makes of the divisor (R206). -/
def Int64Value.magnitude (b : Int64Value) : Int64Value := if b.isNegative then b.neg else b

theorem Int64Value.sval_magnitude_pos {b : Int64Value} (hzero : b ≠ .zero) (hmin : b ≠ .minValue) :
    0 < b.magnitude.sval := by
  have hne := sval_ne_zero hzero
  rw [Int64Value.magnitude]
  split
  · rename_i hneg
    have hval := b.isNegative_iff_sval_neg.mp hneg
    rw [sval_neg hmin]
    omega
  · rename_i hneg
    have hval := mt b.isNegative_iff_sval_neg.mpr hneg
    omega

/-- Only the quotient's sign depends on the divisor's (R202, R206). -/
theorem Int64Value.divide_magnitude (a : Int64Value) {b : Int64Value} (hb : b ≠ .minValue) :
    a.quotient b = (if b.isNegative then (a.quotient b.magnitude).neg else a.quotient b.magnitude) ∧
      a.remainder b = a.remainder b.magnitude := by
  obtain ⟨hq, hr⟩ := a.divide_neg hb
  rw [Int64Value.magnitude]
  split
  · rw [hq, Int64Value.neg_neg, hr]
    exact ⟨rfl, rfl⟩
  · exact ⟨rfl, rfl⟩

/-- A negative dividend's magnitude is divided, and step 7 flips the signs back (R208, R212). -/
theorem applySigns_neg {a b : Int64Value} (qneg : Bool) (ha : a ≠ .minValue) :
    applySigns (!qneg) true false (a.neg.quotient b, a.neg.remainder b) =
      (if qneg then (a.quotient b).neg else a.quotient b, a.remainder b) := by
  obtain ⟨hq, hr⟩ := Int64Value.neg_divide b ha
  cases qneg <;> simp [applySigns, hq, hr]

/-! ## MIN_VALUE as dividend (R208, R209) -/

/-- `MIN_VALUE` divided by a power of two is exact (R209). -/
theorem Int64Value.minValue_shrBy {k : ℕ} {b : Int64Value} (hk : k < 63) (hb : b.sval = 2 ^ k) :
    Int64Value.minValue.shrBy k = Int64Value.minValue.quotient b ∧ Int64Value.minValue.remainder b = .zero := by
  have hdvd : b.sval ∣ Int64Value.minValue.sval := by
    rw [hb, sval_minValue, Int.dvd_neg]
    exact pow_dvd_pow 2 hk.le
  rw [remainder_eq_wrap_tmod, Int64Value.quotient, Int.tmod_eq_zero_of_dvd hdvd, Int.tdiv_eq_ediv_of_dvd hdvd,
    shrBy_eq_wrap, hb, wrap_zero]
  exact ⟨rfl, rfl⟩

/-- The only divisors of `2^63` are powers of two (R208). -/
theorem Int64Value.not_dvd_of_powerOfTwo_eq_none {b : Int64Value} (hb : 0 < b.sval) (h : b.powerOfTwo = none) :
    ¬b.sval ∣ 2 ^ 63 := by
  intro hdvd
  have hval := toNat_bits64 hb.le
  have hlt := b.sval_lt
  have hdvd' : b.bits64.toNat ∣ 2 ^ 63 := by
    rw [← hval] at hdvd
    exact_mod_cast hdvd
  obtain ⟨k, hk, hpow⟩ := (Nat.dvd_prime_pow Nat.prime_two).mp hdvd'
  have hb2 : b.sval = 2 ^ k := by
    rw [← hval, hpow, Nat.cast_pow, Nat.cast_ofNat]
  have hk63 : k ≠ 63 := by
    rintro rfl
    omega
  exact powerOfTwo_eq_none h (by omega) hb2

/-- The quotient of the next number is the same, and its remainder is one more, unless the divisor divides it (R208). -/
theorem tdiv_tmod_succ_of_not_dvd {m n : ℤ} (hm : 0 ≤ m) (hn : 0 < n) (h : ¬n ∣ m + 1) :
    (m + 1).tdiv n = m.tdiv n ∧ (m + 1).tmod n = m.tmod n + 1 := by
  have hdiv := Int.mul_tdiv_add_tmod m n
  have hlo := Int.tmod_nonneg n hm
  have hlt := Int.tmod_lt_of_pos m hn
  have hne : m.tmod n + 1 ≠ n := by
    intro heq
    exact h ⟨m.tdiv n + 1, by rw [Int.mul_add]; omega⟩
  exact (Int.tdiv_tmod_unique (by omega) hn.ne').mpr (by omega)

/-- Step 7 corrects the substitution of `MAX_VALUE` for the magnitude of `MIN_VALUE` (R208, R212). -/
theorem applySigns_substituted {b : Int64Value} (qneg : Bool) (hb : 0 < b.sval) (h : b.powerOfTwo = none) :
    applySigns (!qneg) true true (Int64Value.maxValue.quotient b, Int64Value.maxValue.remainder b) =
      (if qneg then (Int64Value.minValue.quotient b).neg else Int64Value.minValue.quotient b,
        Int64Value.minValue.remainder b) := by
  obtain ⟨hq, hr⟩ := tdiv_tmod_succ_of_not_dvd (m := 2 ^ 63 - 1) (by decide) hb
    (Int64Value.not_dvd_of_powerOfTwo_eq_none hb h)
  have hquot : (Int64Value.maxValue.quotient b).neg = Int64Value.minValue.quotient b := by
    rw [Int64Value.quotient, Int64Value.quotient, Int64Value.neg_wrap, Int64Value.sval_maxValue, ← hq, ← Int.neg_tdiv]
    rfl
  have hrem : (Int64Value.maxValue.remainder b).neg.sub .one = Int64Value.minValue.remainder b := by
    rw [Int64Value.remainder_eq_wrap_tmod, Int64Value.remainder_eq_wrap_tmod, Int64Value.neg_wrap, ← wrap_one,
      Int64Value.sub_wrap, Int64Value.sval_maxValue, ← neg_add', ← hr, ← Int.neg_tmod]
    rfl
  rw [← hquot, ← hrem]
  cases qneg <;> simp [applySigns]

/-! ## The procedure (R213) -/

/-- A zero dividend gives two zeros (R204). -/
theorem Int64Value.zero_divide (b : Int64Value) :
    Int64Value.zero.quotient b = .zero ∧ Int64Value.zero.remainder b = .zero := by
  simp [Int64Value.quotient, remainder_eq_wrap_tmod]

/-- No other value has the magnitude of `MIN_VALUE`, so it stays whole (R205). -/
theorem Int64Value.divide_minValue {a : Int64Value} (ha : a ≠ .minValue) :
    a.quotient .minValue = .zero ∧ a.remainder .minValue = a := by
  have hmin := sval_ne_of_ne_minValue ha
  have hlo := a.le_sval
  have hhi := a.sval_lt
  have hquot : a.sval.tdiv Int64Value.minValue.sval = 0 := by
    rw [← Int.natAbs_eq_zero, Int.natAbs_tdiv, sval_minValue]
    exact Nat.div_eq_of_lt (by omega)
  rw [Int64Value.remainder, Int64Value.quotient, hquot, Int.zero_mul, Int.sub_zero, wrap_zero, wrap_sval]
  exact ⟨rfl, rfl⟩

theorem Int64Value.divModByProcedure_zero_divisor (a : Int64Value) : a.divModByProcedure .zero = none := rfl

theorem Int64Value.divModByProcedure_zero_dividend {b : Int64Value} (hb : b ≠ .zero) :
    Int64Value.zero.divModByProcedure b = some (Int64Value.zero.quotient b, Int64Value.zero.remainder b) := by
  obtain ⟨hquot, hrem⟩ := b.zero_divide
  simp only [Int64Value.divModByProcedure, isZero_iff, if_neg hb, hquot, hrem, if_true]

theorem Int64Value.divModByProcedure_minValue_divisor {a : Int64Value} (ha : a ≠ .zero) :
    a.divModByProcedure .minValue = some (a.quotient .minValue, a.remainder .minValue) := by
  have hmin : Int64Value.minValue ≠ .zero := by decide
  simp only [Int64Value.divModByProcedure, isZero_iff, isMinValue_iff, if_neg ha, if_neg hmin, if_true]
  by_cases hamin : a = .minValue
  · subst hamin
    decide
  · obtain ⟨hquot, hrem⟩ := Int64Value.divide_minValue hamin
    rw [if_neg hamin, hquot, hrem]

section
variable {a b : Int64Value} (hb : b ≠ .zero) (hbmin : b ≠ .minValue)
include hb hbmin

/-- Steps 5 to 7 for `MIN_VALUE` divided by a power of two (R209). -/
theorem Int64Value.divModByProcedure_minValue_of_some {k : ℕ} (hk : b.magnitude.powerOfTwo = some k) :
    Int64Value.minValue.divModByProcedure b =
      some (Int64Value.minValue.quotient b, Int64Value.minValue.remainder b) := by
  have hmin : Int64Value.minValue ≠ .zero := by decide
  obtain ⟨hquot, hrem⟩ := Int64Value.minValue.divide_magnitude hbmin
  obtain ⟨hlt, hpow⟩ := Int64Value.powerOfTwo_eq_some hk
  obtain ⟨hshift, hexact⟩ := Int64Value.minValue_shrBy hlt hpow
  rw [Int64Value.magnitude] at hk
  simp only [Int64Value.divModByProcedure, isZero_iff, isMinValue_iff, if_neg hb, if_neg hbmin, if_neg hmin, if_true, hk,
    hshift, hquot, hrem, hexact]

/-- Steps 5 to 7 for `MIN_VALUE` with `MAX_VALUE` in its place (R208, R212). -/
theorem Int64Value.divModByProcedure_minValue_of_none (hk : b.magnitude.powerOfTwo = none) :
    Int64Value.minValue.divModByProcedure b =
      some (Int64Value.minValue.quotient b, Int64Value.minValue.remainder b) := by
  have hmin : Int64Value.minValue ≠ .zero := by decide
  have hpos := Int64Value.sval_magnitude_pos hb hbmin
  have hmax := magnitudeDivision_powerOfTwo (a := .maxValue) (by decide) hpos
  obtain ⟨hquot, hrem⟩ := Int64Value.minValue.divide_magnitude hbmin
  rw [hquot, hrem, ← applySigns_substituted b.isNegative hpos hk, ← hmax, hk]
  rw [Int64Value.magnitude] at hk
  simp only [Int64Value.divModByProcedure, isZero_iff, isMinValue_iff, if_neg hb, if_neg hbmin, if_neg hmin, if_true, hk,
    Int64Value.magnitude]

/-- Steps 5 to 7 for any other dividend (R208, R212). -/
theorem Int64Value.divModByProcedure_of_ne (ha : a ≠ .zero) (hamin : a ≠ .minValue) :
    a.divModByProcedure b = some (a.quotient b, a.remainder b) := by
  have hpos := Int64Value.sval_magnitude_pos hb hbmin
  have hne := Int64Value.sval_ne_zero ha
  obtain ⟨hquot, hrem⟩ := a.divide_magnitude hbmin
  simp only [Int64Value.divModByProcedure, isZero_iff, isMinValue_iff, if_neg hb, if_neg hbmin, if_neg ha, if_neg hamin]
  rw [← Int64Value.magnitude, hquot, hrem]
  split
  · rename_i hneg
    have ha0 := a.isNegative_iff_sval_neg.mp hneg
    rw [magnitudeDivision_powerOfTwo (by rw [sval_neg hamin]; omega) hpos, applySigns_neg _ hamin]
  · rename_i hneg
    have ha0 := mt a.isNegative_iff_sval_neg.mpr hneg
    rw [magnitudeDivision_powerOfTwo (by omega) hpos]
    rfl

end

/-- Settles O42: the procedure's cases, each of which returns the pair of truncated division. -/
theorem longDivisionProcedureIsDivMod : Obligations.LongDivisionProcedureIsDivMod := by
  intro a b
  by_cases hb : b = .zero
  · subst hb
    rw [a.divModByProcedure_zero_divisor, a.divMod_eq_none rfl]
  rw [a.divMod_eq_some (by rwa [Bool.eq_false_iff, ne_eq, Int64Value.isZero_iff])]
  by_cases ha : a = .zero
  · subst ha
    exact Int64Value.divModByProcedure_zero_dividend hb
  by_cases hbmin : b = .minValue
  · subst hbmin
    exact Int64Value.divModByProcedure_minValue_divisor ha
  by_cases hamin : a = .minValue
  · subst hamin
    cases hk : b.magnitude.powerOfTwo with
    | some k => exact Int64Value.divModByProcedure_minValue_of_some hb hbmin hk
    | none => exact Int64Value.divModByProcedure_minValue_of_none hb hbmin hk
  · exact Int64Value.divModByProcedure_of_ne hb hbmin ha hamin

end Sys2Proof
end

section
/-! `fromDouble` on a finite double (45_software_layer.md rule R250): its comparisons and its division of naturals are
those of the rational magnitude. -/

namespace Sys2Proof

/-- The magnitude of a finite double as a quotient of natural numbers. -/
theorem natCast_mul_two_zpow (m : ℕ) (e : ℤ) :
    (m : ℚ) * 2 ^ e = ((m * 2 ^ e.toNat : ℕ) : ℚ) / ((2 ^ (-e).toNat : ℕ) : ℚ) := by
  obtain ⟨n, rfl | rfl⟩ := e.eq_nat_or_neg
  · simp
  · simp [div_eq_mul_inv]

theorem two_pow_63_lt_div_iff (num k : ℕ) : (2 : ℚ) ^ 63 < (num : ℚ) / ((2 ^ k : ℕ) : ℚ) ↔ 2 ^ 63 * 2 ^ k < num := by
  rw [lt_div_iff₀ (by positivity)]
  norm_cast

theorem two_pow_63_le_div_iff (num k : ℕ) : (2 : ℚ) ^ 63 ≤ (num : ℚ) / ((2 ^ k : ℕ) : ℚ) ↔ 2 ^ 63 * 2 ^ k ≤ num := by
  rw [le_div_iff₀ (by positivity)]
  norm_cast

/-- A negative finite double, by its magnitude (R250). -/
theorem Double.toValue_finite_true (m : ℕ) (e : ℤ) :
    (Double.finite true m e).toValue =
      if 2 ^ 63 < (m : ℚ) * 2 ^ e then .minValue else wrap (-⌊(m : ℚ) * 2 ^ e⌋) := by
  rw [natCast_mul_two_zpow, Rat.floor_natCast_div_natCast]
  simp only [two_pow_63_lt_div_iff]
  simp [Double.toValue]

/-- A non-negative finite double, by its magnitude (R250). -/
theorem Double.toValue_finite_false (m : ℕ) (e : ℤ) :
    (Double.finite false m e).toValue =
      if 2 ^ 63 ≤ (m : ℚ) * 2 ^ e then .maxValue else wrap ⌊(m : ℚ) * 2 ^ e⌋ := by
  rw [natCast_mul_two_zpow, Rat.floor_natCast_div_natCast]
  simp only [two_pow_63_le_div_iff]
  simp [Double.toValue]

theorem finiteDoubleValue_true (m : ℕ) (e : ℤ) : finiteDoubleValue true m e = -((m : ℚ) * 2 ^ e) := by
  simp [finiteDoubleValue]

theorem finiteDoubleValue_false (m : ℕ) (e : ℤ) : finiteDoubleValue false m e = (m : ℚ) * 2 ^ e := by
  simp [finiteDoubleValue]

/-- Truncating a number that is not positive drops the fraction of its magnitude (R250). -/
theorem truncate_neg {q : ℚ} (hq : 0 ≤ q) : (if 0 ≤ -q then ⌊-q⌋ else ⌈-q⌉) = -⌊q⌋ := by
  rw [Int.ceil_neg]
  split
  · have hzero : q = 0 := by linarith
    simp [hzero]
  · rfl

/-- Settles O57: a finite double compares and truncates by its magnitude (`toValue_finite_true`,
`toValue_finite_false`). -/
theorem fromDoubleTruncatesOrSaturates : Obligations.FromDoubleTruncatesOrSaturates := by
  refine ⟨rfl, rfl, rfl, fun negative m e => ?_⟩
  have hmag : (0 : ℚ) ≤ m * 2 ^ e := by positivity
  cases negative with
  | true =>
    rw [Double.toValue_finite_true, finiteDoubleValue_true, truncate_neg hmag]
    refine ⟨fun hlow => if_pos (by linarith), fun hhigh => ?_, fun hlow _ => if_neg (by linarith)⟩
    linarith
  | false =>
    rw [Double.toValue_finite_false, finiteDoubleValue_false, if_pos hmag]
    refine ⟨fun hlow => ?_, fun hhigh => if_pos hhigh, fun _ hhigh => if_neg (not_le.mpr hhigh)⟩
    linarith

end Sys2Proof
end

section
/-! `toDouble` up to `2^53` (45_software_layer.md rules R252, R253): a magnitude of at most 53 bits is shifted into the
significand without loss, and reading the pattern's fields gives it back. -/

namespace Sys2Proof

/-- A binary64 pattern from its sign and its lower 63 bits (G1). -/
def signedPattern (negative : Bool) (p : ℕ) : Word64 := BitVec.ofBool negative ++ BitVec.ofNat 63 p

/-- `toDouble` converts the magnitude of the signed value, `MIN_VALUE` included (R252). -/
theorem toDouble_eq (v : Int64Value) :
    toDouble v = signedPattern v.isNegative (doublePatternOfNat v.sval.natAbs) := by
  have hmag : (if v.isNegative then v.neg else v).bits64.toNat = v.sval.natAbs := by
    have hlo := v.le_sval
    rw [Int64Value.sval] at hlo ⊢
    split
    · rename_i hneg
      rw [if_pos hneg] at hlo
      rw [Int64Value.bits64_neg, BitVec.toNat_neg]
      omega
    · rfl
  rw [toDouble, ← hmag, Int64Value.bits64_toNat, signedPattern]

/-! ## Reading a pattern (G1) -/

theorem msb_signedPattern (negative : Bool) (p : ℕ) : (signedPattern negative p).msb = negative := by
  rw [signedPattern, BitVec.msb_append]
  cases negative <;> simp

theorem toNat_signedPattern (negative : Bool) {e f : ℕ} (he : e < 2 ^ 11) (hf : f < 2 ^ 52) :
    (signedPattern negative (e <<< 52 + f)).toNat = negative.toNat * 2 ^ 63 + e * 2 ^ 52 + f := by
  rw [signedPattern, BitVec.toNat_append, ← Nat.shiftLeft_add_eq_or_of_lt (BitVec.isLt _), BitVec.toNat_ofNat,
    BitVec.toNat_ofBool, Nat.shiftLeft_eq, Nat.shiftLeft_eq]
  omega

/-- Reading a pattern gives its fields back (G1). -/
theorem doubleOfPattern_signedPattern (negative : Bool) {e f : ℕ} (he : e < 2 ^ 11) (hf : f < 2 ^ 52) :
    doubleOfPattern (signedPattern negative (e <<< 52 + f)) =
      if e = 2047 then (if f = 0 then .infinity negative else .nan)
      else if e = 0 then .finite negative f (-1074)
      else .finite negative (f + 2 ^ 52) ((e : ℤ) - 1075) := by
  have hexp : ((signedPattern negative (e <<< 52 + f)).extractLsb' 52 11).toNat = e := by
    rw [BitVec.extractLsb'_toNat, toNat_signedPattern negative he hf, Nat.shiftRight_eq_div_pow]
    omega
  have hfrac : ((signedPattern negative (e <<< 52 + f)).extractLsb' 0 52).toNat = f := by
    rw [BitVec.extractLsb'_toNat, toNat_signedPattern negative he hf, Nat.shiftRight_eq_div_pow]
    omega
  simp only [doubleOfPattern, hexp, hfrac, msb_signedPattern]

/-! ## The pattern of a magnitude (R253) -/

/-- A number of at most 53 bits, shifted to 53 bits, has its top bit set (R253). -/
theorem mul_two_pow_sub_log2_mem {x : ℕ} (hx : x ≠ 0) (hlog : x.log2 ≤ 52) :
    2 ^ 52 ≤ x * 2 ^ (52 - x.log2) ∧ x * 2 ^ (52 - x.log2) < 2 ^ 53 := by
  have hlargest : (2 ^ 53 - 1).log2 = 52 := by decide
  obtain ⟨hhi, hlo⟩ := mul_two_pow_log2_sub hx (m := 2 ^ 53 - 1) (by rwa [hlargest])
  rw [hlargest] at hhi hlo
  rw [pow_succ _ (52 - x.log2), ← mul_assoc] at hlo
  exact ⟨by omega, hhi⟩

/-- A number of at most 53 bits is its own significand, under a power of two (R253). -/
theorem doubleOfPattern_of_log2_le (negative : Bool) {x : ℕ} (hx : x ≠ 0) (hlog : x.log2 ≤ 52) :
    doubleOfPattern (signedPattern negative (doublePatternOfNat x)) =
      .finite negative (x * 2 ^ (52 - x.log2)) ((x.log2 : ℤ) - 52) := by
  obtain ⟨hlo, hhi⟩ := mul_two_pow_sub_log2_mem hx hlog
  rw [doublePatternOfNat, if_neg hx, if_pos hlog, doubleOfPattern_signedPattern negative (by omega) (by omega),
    if_neg (by omega), if_neg (by omega), Nat.sub_add_cancel hlo]
  congr 1
  omega

/-- The pattern of a number up to `2^53`, under either sign, stands for that number exactly (R253). -/
theorem exists_doubleOfPattern_eq_finite (negative : Bool) {x : ℕ} (hx : x ≤ 2 ^ 53) :
    ∃ m e, doubleOfPattern (signedPattern negative (doublePatternOfNat x)) = .finite negative m e ∧
      (m : ℚ) * 2 ^ e = x := by
  by_cases hzero : x = 0
  · subst hzero
    exact ⟨0, -1074, doubleOfPattern_signedPattern negative (e := 0) (f := 0) (by decide) (by decide), by simp⟩
  rcases hx.eq_or_lt with rfl | hlt
  · have hpattern : doublePatternOfNat (2 ^ 53) = 1076 <<< 52 + 0 := by decide
    refine ⟨2 ^ 52, 1, ?_, by norm_num⟩
    rw [hpattern, doubleOfPattern_signedPattern negative (by decide) (by decide)]
    rfl
  · have hlog : x.log2 ≤ 52 := Nat.le_of_lt_succ ((Nat.log2_lt hzero).mpr hlt)
    refine ⟨_, _, doubleOfPattern_of_log2_le negative hzero hlog, ?_⟩
    rw [Nat.cast_mul, Nat.cast_pow, Nat.cast_ofNat, mul_assoc, ← zpow_natCast, ← zpow_add₀ two_ne_zero, Nat.cast_sub hlog]
    simp

/-- Settles O58: the magnitude fits the 53 bits of the significand (`exists_doubleOfPattern_eq_finite`). -/
theorem toDoubleIsExactUpTo53Bits : Obligations.ToDoubleIsExactUpTo53Bits := by
  intro v hv
  rw [Int.abs_eq_natAbs] at hv
  obtain ⟨m, e, hdouble, hvalue⟩ := exists_doubleOfPattern_eq_finite v.isNegative (Int.ofNat_le.mp hv)
  refine ⟨v.isNegative, m, e, by rw [toDouble_eq, hdouble], ?_⟩
  have hsign : (if v.isNegative then -1 else 1) * (v.sval.natAbs : ℤ) = v.sval := by
    simp only [v.isNegative_iff_sval_neg]
    split <;> omega
  have hcast := congrArg (Int.cast : ℤ → ℚ) hsign
  rwa [Int.cast_mul, Int.cast_ite, Int.cast_natCast, Int.cast_neg, Int.cast_one, ← hvalue, ← mul_assoc] at hcast

end Sys2Proof
end

section
/-! `toDecimalString` (45_software_layer.md rules R254, R255, R257): its chunks of nine digits, padded but for the leading
one, join to the base-10 digits of the magnitude. -/

namespace Sys2Proof

/-- The base-10 digits of a number, most significant first, with none for zero. -/
def decimalDigits (n : ℕ) : List Char := ((Nat.digits 10 n).map digitChar).reverse

/-- `digits` is the ordinary numeral of `n` (R257). -/
structure IsNumeral (n : ℕ) (digits : List Char) : Prop where
  ne_nil : digits ≠ []
  digit : ∀ c ∈ digits, '0' ≤ c ∧ c ≤ '9'
  no_leading_zero : digits.head? = some '0' → digits = ['0']
  denotes : naturalNumeral digits = n

/-! ## Digits -/

theorem digitChar_mem {d : ℕ} (h : d < 10) : '0' ≤ digitChar d ∧ digitChar d ≤ '9' := by
  interval_cases d <;> decide

theorem digitChar_toNat {d : ℕ} (h : d < 10) : (digitChar d).toNat - 48 = d := by
  interval_cases d <;> decide

theorem digitChar_eq_zero_iff {d : ℕ} (h : d < 10) : digitChar d = '0' ↔ d = 0 := by
  interval_cases d <;> decide

@[simp] theorem decimalDigits_zero : decimalDigits 0 = [] := rfl

/-- The last digit splits off. -/
theorem decimalDigits_of_ne_zero {n : ℕ} (h : n ≠ 0) :
    decimalDigits n = decimalDigits (n / 10) ++ [digitChar (n % 10)] := by
  rw [decimalDigits, Nat.digits_def' (by decide) (Nat.pos_of_ne_zero h), List.map_cons, List.reverse_cons, decimalDigits]

@[simp] theorem decimalDigits_eq_nil_iff {n : ℕ} : decimalDigits n = [] ↔ n = 0 := by
  simp [decimalDigits, Nat.digits_eq_nil_iff_eq_zero]

theorem naturalNumeral_append (digits : List Char) (c : Char) :
    naturalNumeral (digits ++ [c]) = 10 * naturalNumeral digits + (c.toNat - 48) := by
  simp [naturalNumeral]

theorem naturalNumeral_decimalDigits (n : ℕ) : naturalNumeral (decimalDigits n) = n := by
  induction n using Nat.strong_induction_on with
  | h n ih =>
    by_cases hn : n = 0
    · subst hn
      rfl
    · rw [decimalDigits_of_ne_zero hn, naturalNumeral_append, ih (n / 10) (by omega), digitChar_toNat (by omega)]
      omega

theorem mem_decimalDigits {n : ℕ} {c : Char} (h : c ∈ decimalDigits n) : '0' ≤ c ∧ c ≤ '9' := by
  obtain ⟨d, hd, rfl⟩ := List.mem_map.mp (List.mem_reverse.mp h)
  exact digitChar_mem (Nat.digits_lt_base (by decide) hd)

/-- The first digit is not zero (R254). -/
theorem head?_decimalDigits_ne_zero (n : ℕ) : (decimalDigits n).head? ≠ some '0' := by
  induction n using Nat.strong_induction_on with
  | h n ih =>
    by_cases hn : n = 0
    · simp [hn]
    rw [decimalDigits_of_ne_zero hn]
    by_cases hquot : n / 10 = 0
    · have hlast : digitChar (n % 10) ≠ '0' := mt (digitChar_eq_zero_iff (Nat.mod_lt n (by decide))).mp (by omega)
      simpa [hquot] using hlast
    · rw [List.head?_append_of_ne_nil _ (by simpa using hquot)]
      exact ih (n / 10) (by omega)

theorem decimalDigits_isNumeral {n : ℕ} (h : n ≠ 0) : IsNumeral n (decimalDigits n) where
  ne_nil := mt decimalDigits_eq_nil_iff.mp h
  digit _ := mem_decimalDigits
  no_leading_zero hhead := absurd hhead (head?_decimalDigits_ne_zero n)
  denotes := naturalNumeral_decimalDigits n

theorem zero_isNumeral : IsNumeral 0 ['0'] := ⟨by decide, by simp, fun _ => rfl, rfl⟩

/-! ## Chunks -/

/-- A padded chunk continues the digits of what stands before it (R254). -/
theorem decimalDigits_append_paddedDigits {q : ℕ} (hq : q ≠ 0) (w r : ℕ) (hr : r < 10 ^ w) :
    decimalDigits q ++ paddedDigits w r = decimalDigits (q * 10 ^ w + r) := by
  induction w generalizing r with
  | zero => simp [paddedDigits, Nat.lt_one_iff.mp hr]
  | succ w ih =>
    have hne : q * 10 ^ w * 10 + r ≠ 0 := by positivity
    have hdiv : (q * 10 ^ w * 10 + r) / 10 = q * 10 ^ w + r / 10 := by omega
    have hmod : (q * 10 ^ w * 10 + r) % 10 = r % 10 := by omega
    rw [pow_succ, ← mul_assoc, decimalDigits_of_ne_zero hne, hdiv, hmod, ← ih (r / 10) (by omega), paddedDigits,
      List.append_assoc]

/-- A chunk without its leading zeros is its own digits (R255). -/
theorem dropWhile_paddedDigits (w r : ℕ) (hr : r < 10 ^ w) :
    (paddedDigits w r).dropWhile (· == '0') = decimalDigits r := by
  induction w generalizing r with
  | zero => simp [paddedDigits, Nat.lt_one_iff.mp hr]
  | succ w ih =>
    rw [paddedDigits, List.dropWhile_append, ih (r / 10) (by omega)]
    by_cases hzero : r = 0
    · subst hzero
      decide
    rw [decimalDigits_of_ne_zero hzero]
    by_cases hquot : r / 10 = 0
    · have hlast : digitChar (r % 10) ≠ '0' := mt (digitChar_eq_zero_iff (Nat.mod_lt r (by decide))).mp (by omega)
      simp [hquot, hlast]
    · simp [hquot]

/-- A chunk continues the digits of what stands before it, and begins the numeral when that is nothing (R254, R255). -/
theorem decimalDigits_append_chunkDigits {leading : Bool} {q r : ℕ} (hr : r < 10 ^ 9) (hq : leading = true ↔ q = 0) :
    decimalDigits q ++ chunkDigits leading r = decimalDigits (q * 10 ^ 9 + r) := by
  cases leading with
  | true =>
    rw [hq.mp rfl, decimalDigits_zero, Nat.zero_mul, Nat.zero_add]
    exact dropWhile_paddedDigits 9 r hr
  | false => exact decimalDigits_append_paddedDigits (by simpa using hq) 9 r hr

/-! ## The loop -/

theorem sval_toInt32 {v : Int64Value} (hlo : -2 ^ 31 ≤ v.sval) (hhi : v.sval < 2 ^ 31) : (toInt32 v).toInt = v.sval := by
  obtain ⟨i, rfl⟩ := exists_fromInt32_eq_iff.mpr ⟨hlo, Int.le_sub_one_of_lt hhi⟩
  rw [toInt32_fromInt32, sval_fromInt32]

/-- The loop's division by `10^9` (R254). -/
theorem Int64Value.divMod_billion {v : Int64Value} {n : ℕ} (hv : v.sval = n) :
    ∃ q r, v.divMod (fromInt32 1000000000) = some (q, r) ∧ q.sval = (n / 10 ^ 9 : ℕ) ∧
      (toInt32 r).toInt.toNat = n % 10 ^ 9 := by
  have hsval : (fromInt32 1000000000).sval = (10 ^ 9 : ℕ) := by decide
  have hrem : (v.remainder (fromInt32 1000000000)).sval = (n % 10 ^ 9 : ℕ) := by
    rw [sval_remainder v (by rw [hsval]; decide), hv, hsval]
    rfl
  refine ⟨_, _, divMod_eq_some v rfl, ?_, ?_⟩
  · rw [sval_quotient (fun h => absurd h.2 (by decide)), hv, hsval]
    rfl
  · rw [sval_toInt32 (by omega) (by omega), hrem, Int.toNat_natCast]

/-- The loop writes the digits of its value before those it has, given enough divisions (R254). -/
theorem decimalLoop_eq (fuel : ℕ) {v : Int64Value} {n : ℕ} (hv : v.sval = n) (hn : n < (10 ^ 9) ^ fuel) (acc : List Char) :
    decimalLoop fuel v acc = decimalDigits n ++ acc := by
  induction fuel generalizing v n acc with
  | zero =>
    obtain rfl : n = 0 := Nat.lt_one_iff.mp hn
    rfl
  | succ fuel ih =>
    rw [decimalLoop]
    split
    · rename_i hzero
      have hsval := Int64Value.isZero_iff_sval.mp hzero
      obtain rfl : n = 0 := by omega
      rfl
    · obtain ⟨q, r, hdivMod, hq, hr⟩ := Int64Value.divMod_billion hv
      have hleading : q.isZero = true ↔ n / 10 ^ 9 = 0 := by
        rw [Int64Value.isZero_iff_sval, hq]
        omega
      have hchunk := decimalDigits_append_chunkDigits (Nat.mod_lt n (by decide)) hleading
      rw [hdivMod]
      simp only
      rw [ih hq (by omega), ← List.append_assoc, hr, hchunk, Nat.div_add_mod']

theorem positiveDecimal_eq {v : Int64Value} {n : ℕ} (hv : v.sval = n) : positiveDecimal v = decimalDigits n := by
  have hlt := v.sval_lt
  rw [positiveDecimal, decimalLoop_eq 3 hv (by omega), List.append_nil]

/-! ## The string -/

/-- The sign and the numeral of the magnitude (R254). -/
theorem toDecimalString_eq (v : Int64Value) :
    ∃ digits, toDecimalString v = (if v.isNegative then ['-'] else []) ++ digits ∧ IsNumeral v.sval.natAbs digits := by
  by_cases hzero : v = .zero
  · subst hzero
    exact ⟨['0'], rfl, zero_isNumeral⟩
  have hsval := Int64Value.sval_ne_zero hzero
  refine ⟨decimalDigits v.sval.natAbs, ?_, decimalDigits_isNumeral (by omega)⟩
  by_cases hmin : v = .minValue
  · subst hmin
    have hdigits : decimalDigits (2 ^ 63) =
      ['9', '2', '2', '3', '3', '7', '2', '0', '3', '6', '8', '5', '4', '7', '7', '5', '8', '0', '8'] := by
      simp [decimalDigits, digitChar]
    rw [Int64Value.sval_minValue, Int.natAbs_neg]
    exact congrArg ('-' :: ·) hdigits.symm
  simp only [toDecimalString, Int64Value.isZero_iff, Int64Value.isMinValue_iff, if_neg hzero, if_neg hmin]
  split
  · rename_i hneg
    have hlt := v.isNegative_iff_sval_neg.mp hneg
    rw [positiveDecimal_eq (n := v.sval.natAbs) (by rw [Int64Value.sval_neg hmin]; omega)]
    rfl
  · rename_i hneg
    have hge := mt v.isNegative_iff_sval_neg.mpr hneg
    rw [positiveDecimal_eq (n := v.sval.natAbs) (by omega)]
    rfl

/-- The sign and the numeral of a magnitude denote the signed number (R257). -/
theorem decimalValue_sign_append {negative : Bool} {digits : List Char} {n : ℕ} (h : IsNumeral n digits) :
    decimalValue ((if negative then ['-'] else []) ++ digits) = if negative then -(n : ℤ) else n := by
  cases negative with
  | true => simp [decimalValue, h.denotes]
  | false =>
    have hhead : digits.head? ≠ some '-' := fun hminus =>
      absurd (h.digit '-' (List.mem_of_mem_head? hminus)) (by decide)
    simp [decimalValue, hhead, h.denotes]

/-- Settles O56: the string is the sign and the numeral of the magnitude (`toDecimalString_eq`). -/
theorem decimalStringDenotesTheValue : Obligations.DecimalStringDenotesTheValue := by
  intro v
  obtain ⟨digits, hstring, hnumeral⟩ := toDecimalString_eq v
  have hvalue : decimalValue (toDecimalString v) = v.sval := by
    rw [hstring, decimalValue_sign_append hnumeral]
    simp only [v.isNegative_iff_sval_neg]
    split <;> omega
  refine ⟨hvalue, by rw [hvalue, wrap_sval], digits, hstring, hnumeral.ne_nil, hnumeral.digit, hnumeral.no_leading_zero⟩

end Sys2Proof
end

section
/-! The faults and the fault state (60_exceptions.md rules R271 to R278): which commands take which fault, which complete,
what a block in the fault state takes, and the return from it. -/

namespace Sys2Proof

/-- A value is zero exactly when its three limbs are (R160, R271). -/
theorem Int64Value.isZero_iff_limbs {v : Int64Value} : v.isZero = true ↔ v.high = 0 ∧ v.mid = 0 ∧ v.low = 0 := by
  simp only [Int64Value.isZero, Bool.and_eq_true, beq_iff_eq]
  tauto

end Sys2Proof

namespace Sys2Proof.Machine

/-! ## What a command does to a ready block -/

/-- A legal command in a ready block has its effect (R95). -/
theorem exec_wellFormed {i : Instr} {s : State} (hready : s.faulted = false) (hw : i.wellFormed = true) :
    ∃ t, exec i s = .next t ∧ CommandEffect i s t := by
  obtain ⟨f, hf, heff⟩ := exec_shape i
  exact ⟨f s, (hf s).trans (performCommand_wellFormed i f s hready hw), heff s⟩

/-- A command with an illegal destination in a ready block raises IllegalCommand, whatever its divisor is (R272, R273). -/
theorem exec_illFormed {i : Instr} {s : State} (hready : s.faulted = false) (hw : i.wellFormed = false) :
    exec i s = .next (s.faultEntry .illegalCommand (encode i)) := by
  obtain ⟨f, hf, -⟩ := exec_shape i
  exact (hf s).trans (performCommand_illFormed i f s hready hw)

/-- A legal command with a zero divisor takes DivideByZero with its own word (R271). -/
theorem CommandEffect.eq_faultEntry {i : Instr} {s t : State} {rb : RegIdx} (h : CommandEffect i s t)
    (hdiv : i.divisor = some rb) (hzero : (s.readReg rb).isZero = true) :
    t = s.faultEntry .divideByZero (encode i) := by
  cases h with
  | divideByZero _ _ _ => rfl
  | one rd v _ hnz => simp [hnz rb hdiv] at hzero
  | pair rd rr q r _ hnz => simp [hnz rb hdiv] at hzero

/-- A legal command whose divisor, if it has one, is not zero tells the host `done` and keeps `STATUS` and `FCMD` (R278). -/
theorem CommandEffect.done {i : Instr} {s t : State} (h : CommandEffect i s t)
    (hnz : ∀ rb, i.divisor = some rb → (s.readReg rb).isZero = false) :
    t.status = s.status ∧ t.fcmd = s.fcmd ∧ t.answer = .done := by
  cases h with
  | divideByZero rb hdiv hzero => simp [hnz rb hdiv] at hzero
  | one rd v _ _ => exact ⟨s.complete_status rd v, s.complete_fcmd rd v, rfl⟩
  | pair rd rr q r _ _ => exact ⟨s.completePair_status rd rr q r, s.completePair_fcmd rd rr q r, rfl⟩

/-! ## DivideByZero and total commands -/

/-- Settles O24: a zero divisor forces the fault entry, and a divisor that is not zero leaves `STATUS` as it was. -/
theorem divideByZeroExactlyOnZeroDivisor : Obligations.DivideByZeroExactlyOnZeroDivisor := by
  intro s i rb hdiv hw hready
  obtain ⟨t, hexec, heff⟩ := exec_wellFormed hready hw
  rw [← Int64Value.isZero_iff_limbs]
  refine ⟨t, hexec, fun hzero => ?_, fun hfaulted => ?_⟩
  · rw [heff.eq_faultEntry hdiv hzero]
    exact s.faultEntry_tookFault _ _
  · by_contra hnz
    have hstatus : t.status = s.status := (heff.done (by simpa [hdiv] using hnz)).1
    simp [State.faulted_congr hstatus, hready] at hfaulted

/-- Settles O26: such a command is told `done` (`CommandEffect.done`), and `FAULT` is a bit of the unchanged `STATUS`. -/
theorem everyOtherCommandIsTotal : Obligations.EveryOtherCommandIsTotal := by
  intro s i hready hw hnz
  obtain ⟨t, hexec, heff⟩ := exec_wellFormed hready hw
  obtain ⟨hstatus, hfcmd, hanswer⟩ := heff.done hnz
  exact ⟨t, hexec, (State.faulted_congr hstatus).trans hready, hstatus, hfcmd, hanswer⟩

/-! ## IllegalCommand -/

/-- An issued word that takes IllegalCommand is illegal: DivideByZero has another cause, and a word that completes leaves
the block ready (R270, R272). -/
theorem WordEffect.illegal_of_tookFault {cw : Word64} {s t : State} (h : WordEffect cw s t) (hready : s.faulted = false)
    (hfault : TookFault s t .illegalCommand cw) : legal cw = false := by
  obtain ⟨-, hfaulted, hcause, -⟩ := hfault
  cases h with
  | illegalCommand hl => exact hl
  | divideByZero _ =>
    have hdbz : (s.faultEntry .divideByZero cw).causeCode = Cause.divideByZero.code := statusWord_cause true _
    exact absurd (hdbz.symm.trans hcause) (by decide)
  | completed i _ _ hc => simp [State.faulted_congr hc.status, hready] at hfaulted

/-- Settles O25: an illegal word takes the fault whichever check it fails (`performWord_tookFault`), and no other word
does. -/
theorem illegalCommandExactlyForIllegalWords : Obligations.IllegalCommandExactlyForIllegalWords := by
  refine ⟨fun s cw hready => ⟨performWord_tookFault hready, ?_⟩, fun s i hready hw =>
    ⟨_, exec_illFormed hready hw, s.faultEntry_tookFault _ _⟩⟩
  rintro ⟨t, hperform, hfault⟩
  exact (performWord_next hperform).2.illegal_of_tookFault hready hfault

/-! ## The fault state -/

theorem exec_faulted (i : Instr) {s : State} (h : s.faulted = true) : exec i s = .fault .issueNotEnabled := by
  obtain ⟨f, hf, -⟩ := exec_shape i
  exact (hf s).trans (performCommand_faulted i f s h)

/-- A block in the fault state performs no word, a word that is no command included (R275). -/
theorem performWord_faulted (cw : Word64) {s : State} (h : s.faulted = true) :
    performWord cw s = .fault .issueNotEnabled := by
  cases hd : decode cw with
  | error e => exact (performWord_error hd s).trans (s.whenReady_faulted _ h)
  | ok i => exact (performWord_ok hd s).trans (exec_faulted i h)

theorem hostWrite_faulted {r : RegIdx} {s : State} (b : Word64) (hg : r.isGeneral = true) (h : s.faulted = true) :
    hostWrite r b s = .fault .writeNotEnabled := by
  simp [hostWrite, hg, h]

/-- Settles O27: a word, a command and a write stop by name, and the other four actions are enabled. -/
theorem faultStateTakesNoCommand : Obligations.FaultStateTakesNoCommand := fun _ hf =>
  ⟨fun cw => performWord_faulted cw hf, fun i => exec_faulted i hf, fun _ b hg => hostWrite_faulted b hg hf,
    fun _ => hostAction_of_enabled rfl, hostAction_of_enabled rfl, hostAction_of_enabled hf, hostAction_of_enabled rfl⟩

/-! ## The acknowledgement -/

@[simp] theorem State.acknowledge_causeCode (s : State) : s.acknowledge.causeCode = 0 := statusWord_cause false .none

/-- Settles O45: the step is `State.acknowledge`, which leaves a ready block; in a ready block `H_ACK` is not taken. -/
theorem acknowledgeReturnsFromTheFault : Obligations.AcknowledgeReturnsFromTheFault := by
  intro s rest hp
  have hstep : step s = hostAck { s with pending := rest } := step_action hp
  refine ⟨fun hf => ?_, fun hready t ht => ?_⟩
  · have hack : ({ s with pending := rest } : State).acknowledge.faulted = false := State.acknowledge_faulted _
    exact ⟨_, hstep.trans (hostAck_faulted hf), hack, State.acknowledge_causeCode _, rfl, fun _ => rfl, rfl, rfl, rfl,
      fun cw => performWord_ready cw hack, fun r b hg => ⟨_, hostWrite_ready b hg hack⟩⟩
  · have hf : s.faulted = true := (hostAck_next (hstep.symm.trans ht)).1
    simp [hready] at hf

end Sys2Proof.Machine
end

section
/-! Reset and runs (70_reset_and_hazards.md rules R300, R301, R309): what a run does with its first word, how it ends, and
that a completed run is the machine taking the words one step after another. -/

namespace Sys2Proof.Machine

/-! ## H_RESET -/

/-- Settles O46: the step is `State.hostReset`, after which every state's constants stand and the block is ready. -/
theorem resetActionClearsTheControlRegisters : Obligations.ResetActionClearsTheControlRegisters := by
  intro s rest hp
  have hready : ({ s with pending := rest } : State).hostReset.faulted = false := State.hostReset_faulted _
  exact ⟨_, step_action hp, rfl, rfl, State.readReg_x0 _, State.readReg_x1 _, State.readReg_x2 _, State.readReg_x3 _,
    State.readReg_x4 _, State.readReg_x5 _, rfl, rfl, fun cw => performWord_ready cw hready,
    fun r b hg => ⟨_, hostWrite_ready b hg hready⟩⟩

/-! ## The first word of a run -/

/-- A run from index `ci` is the run from index 0 with its index moved up by `ci`. -/
theorem runFrom_eq_run (s : State) (ci : ℕ) (cmds : List Word64) :
    runFrom s ci cmds = ((run s cmds).1, (run s cmds).2 + ci) := by
  unfold run
  induction cmds generalizing s ci with
  | nil => simp [runFrom]
  | cons cw rest ih =>
    cases hs : s.faulted with
    | true => simp [runFrom, hs]
    | false =>
      obtain ⟨t, hperform⟩ := performWord_ready cw hs
      cases ht : t.faulted with
      | true => simp [runFrom, hs, hperform, ht]
      | false => simp [runFrom, hs, hperform, ht, ih t (ci + 1), ih t 1, Nat.add_assoc, Nat.add_comm 1 ci]

/-- A run ends at its first word when that word takes a fault. -/
theorem run_cons_faulted {cw : Word64} {s t : State} (rest : List Word64) (h : performWord cw s = .next t)
    (ht : t.faulted = true) : run s (cw :: rest) = (t, 0) := by
  simp [run, runFrom, h, ht, (performWord_next h).1]

/-- A run whose first word completes is the run of the other words, one index further on. -/
theorem run_cons_ready {cw : Word64} {s t : State} (rest : List Word64) (h : performWord cw s = .next t)
    (ht : t.faulted = false) : run s (cw :: rest) = ((run t rest).1, (run t rest).2 + 1) := by
  rw [← runFrom_eq_run]
  simp [run, runFrom, h, ht, (performWord_next h).1]

/-! ## How a run ends -/

/-- A word of a ready block that leaves `FAULT` set stands in `FCMD` and wrote no value register (R274). -/
theorem WordEffect.fcmd_and_frame_of_faulted {cw : Word64} {s t : State} (h : WordEffect cw s t)
    (hready : s.faulted = false) (ht : t.faulted = true) : t.fcmd = cw ∧ ∀ r, t.readReg r = s.readReg r := by
  cases h with
  | illegalCommand _ => exact ⟨rfl, fun _ => rfl⟩
  | divideByZero _ => exact ⟨rfl, fun _ => rfl⟩
  | completed i _ _ hc => simp [State.faulted_congr hc.status, hready] at ht

/-- Settles O54, by induction on the words: the first word ends the run at a fault, or the rest of the run decides. -/
theorem runCompletesOrStopsAtTheFault : Obligations.RunCompletesOrStopsAtTheFault := by
  intro s cmds hready
  induction cmds generalizing s with
  | nil => exact .inl ⟨rfl, hready⟩
  | cons cw rest ih =>
    obtain ⟨t, hperform⟩ := performWord_ready cw hready
    cases ht : t.faulted with
    | true =>
      obtain ⟨hfcmd, hframe⟩ := (performWord_next hperform).2.fcmd_and_frame_of_faulted hready ht
      rw [run_cons_faulted rest hperform ht]
      exact .inr ⟨⟨ht, by simp [hfcmd]⟩, ⟨rfl, hready⟩, hframe⟩
    | false =>
      rw [run_cons_ready rest hperform ht]
      obtain ⟨hlen, hend⟩ | ⟨⟨hend, hfcmd⟩, ⟨hlen, hprefix⟩, hframe⟩ := ih t ht
      · exact .inl ⟨by simp [hlen], hend⟩
      · rw [List.take_succ_cons, run_cons_ready _ hperform ht]
        exact .inr ⟨⟨hend, by simpa using hfcmd⟩, ⟨by simp [hlen], hprefix⟩, hframe⟩

/-! ## The host's list and the effect of a word -/

theorem State.writeReg_pending_update (s : State) (x : List HostAction) (r : RegIdx) (v : Int64Value) :
    ({ s with pending := x } : State).writeReg r v = { s.writeReg r v with pending := x } := by
  unfold State.writeReg; split <;> rfl

theorem State.complete_pending_update (s : State) (x : List HostAction) (rd : RegIdx) (v : Int64Value) :
    ({ s with pending := x } : State).complete rd v = { s.complete rd v with pending := x } := by
  simp only [State.complete, State.writeReg_pending_update]

theorem State.completePair_pending_update (s : State) (x : List HostAction) (rd rr : RegIdx) (q r : Int64Value) :
    ({ s with pending := x } : State).completePair rd rr q r = { s.completePair rd rr q r with pending := x } := by
  simp only [State.completePair, State.writeReg_pending_update]

/-- A legal command does to a state with another host list what it does to the state, and keeps that list. -/
theorem SameEffect.eq_pending_update {i : Instr} {s t t' : State} {x : List HostAction}
    (h : SameEffect i s { s with pending := x } t t') : t' = { t with pending := x } := by
  cases h with
  | divideByZero => rfl
  | one rd v _ => exact s.complete_pending_update x rd v
  | pair rd rr q r _ => exact s.completePair_pending_update x rd rr q r

/-- What a word does is no matter of the host actions that follow it, and it leaves them alone (R33, R59). -/
theorem performWord_pending_update {cw : Word64} {s t : State} (x : List HostAction) (h : performWord cw s = .next t) :
    performWord cw { s with pending := x } = .next { t with pending := x } := by
  cases hd : decode cw with
  | error e =>
    rw [performWord_error hd] at h ⊢
    obtain ⟨hready, rfl⟩ := performIllegal_next h
    exact performIllegal_ready cw hready
  | ok i =>
    obtain ⟨f, hf, hsame⟩ := exec_reads_sources i
    rw [performWord_ok hd, hf] at h ⊢
    obtain ⟨hready, ⟨hw, rfl⟩ | ⟨hw, rfl⟩⟩ := performCommand_next h
    · have heff : f { s with pending := x } = { f s with pending := x } :=
        (hsame s { s with pending := x } fun _ _ => rfl).eq_pending_update
      exact (performCommand_wellFormed i f { s with pending := x } hready hw).trans (congrArg _ heff)
    · exact performCommand_illFormed i f _ hready hw

/-! ## A run as steps of the machine -/

/-- The machine's first step, and then the others. -/
theorem core_run_succ {s t : State} (k : ℕ) (h : step s = .next t) :
    Host.Core.run Sys2Proof.core (k + 1) s = Host.Core.run Sys2Proof.core k t := by
  have hcore : Sys2Proof.core.step s = .next t := h
  simp only [Host.Core.run, hcore]

/-- With an issued word first on the host's list, the step performs the word and leaves the rest of the list. -/
theorem step_issue {cw : Word64} {s t : State} (x : List HostAction) (h : performWord cw s = .next t) :
    step { s with pending := .issue cw :: x } = .next { t with pending := x } := by
  rw [step_action rfl]
  exact performWord_pending_update (s := s) x h

/-- Settles O55, by induction on the words: the first step performs the first word, whose end state is ready, since the
run completes, and has the host's list that the other words start from. -/
theorem runIsSteppingTheMachine : Obligations.RunIsSteppingTheMachine := by
  intro s cmds hp hready hdone
  induction cmds generalizing s with
  | nil => rw [List.map_nil, ← hp]; rfl
  | cons cw rest ih =>
    obtain ⟨t, hperform⟩ := performWord_ready cw hready
    have hpt : t.pending = [] := (performWord_next hperform).2.pending_eq.trans hp
    rw [List.length_cons, List.map_cons, core_run_succ rest.length (step_issue _ hperform)]
    cases ht : t.faulted with
    | true => simp [Completed, run_cons_faulted rest hperform ht] at hdone
    | false =>
      rw [run_cons_ready rest hperform ht] at hdone ⊢
      obtain ⟨hlen, hend⟩ := hdone
      exact ih t hpt ht ⟨by simpa using hlen, hend⟩

end Sys2Proof.Machine
end
